-- ==== Sys2Proof/Word.lean ====
section
/-!
DEFINITION. The word types of the block, one per width the spec gives a value.
spec/00_scope.md R7 and R10 (widths, bit 0 least significant), spec/30_encoding.md R71, R82.
-/

namespace Sys2Proof

/-- A byte: 8 bits, unsigned (R10). -/
abbrev Byte := BitVec 8

/-- A coefficient or cycle field of a frame: FIELD_BITS = 24 (R7, R82). -/
abbrev Raw24 := BitVec 24

/-- The pulse counter: PULSE_BITS = 16 (R7, R82). -/
abbrev Raw16 := BitVec 16

/-- A time stamp: TIME_WIDTH = 32 (R7). -/
abbrev Time := BitVec 32

/-- A sample count: COUNT_WIDTH = 32 (R7). -/
abbrev Count := BitVec 32

/-- A NUMERIC value as its IEEE 754 binary32 bit pattern (R7, R12, R78). -/
abbrev Numeric := BitVec 32

/-- A command word: 36 bits (R71). -/
abbrev CmdWord := BitVec 36

end Sys2Proof
end

