-- ==== Sys2Proof/Config.lean ====
section
/-!
DEFINITION. What is fixed when the block is built (spec/00_scope.md R7), and the free values.
-/

namespace Sys2Proof

/-- What a zero divisor does (R7 ZERO_CYCLE_POLICY, R155). `discardFrame` is the hardware. -/
inductive ZeroCyclePolicy where
  | discardFrame
  | fault
  deriving DecidableEq, Repr

/-- What a reserved OP does. `respond` is the hardware (R73, R220); `refuse` is the proof model of R238. -/
inductive ReservedPolicy where
  | respond
  | refuse
  deriving DecidableEq, Repr

/-- What a sample count does at 2^COUNT_WIDTH. `wrap` is the hardware (R186); `refuse` is the proof model
of R238. -/
inductive CountPolicy where
  | wrap
  | refuse
  deriving DecidableEq, Repr

/-- The parameters R7 marks as decisions, and the two stops R238 leaves to a proof model. The widths
TIME_WIDTH and COUNT_WIDTH and NUMERIC = BINARY32 are fixed in Word.lean (log entry 9). -/
structure Params where
  timeoutInclusive : Bool
  sync1Primary : Byte
  sync1Legacy : Byte
  sync2 : Byte
  uncalSentinel : Byte
  zeroCycle : ZeroCyclePolicy
  reserved : ReservedPolicy
  countOverflow : CountPolicy
  deriving DecidableEq, Repr

namespace Config

/-- The defaults of R7: "only the listed default is the hardware this spec describes". -/
def hw : Params where
  timeoutInclusive := true
  sync1Primary := 0x55#8
  sync1Legacy := 0xAA#8
  sync2 := 0x5A#8
  uncalSentinel := 0xAA#8
  zeroCycle := .discardFrame
  reserved := .respond
  countOverflow := .wrap

/-- The proof model of R238: the hardware, but for the three cases it stops on. It is not the hardware. -/
def proofModel : Params :=
  { hw with zeroCycle := .fault, reserved := .refuse, countOverflow := .refuse }

/-- FRAME_LEN (R7): bytes per frame, and the size of the frame buffer (R50). -/
abbrev frameLen : Nat := 24

/-- LAST_POS (R7): the checksum position. -/
abbrev lastPos : Nat := 23

/-- TIMEOUT (R7), in units of `now`. -/
abbrev timeout : Nat := 500

/-- STATUS_NIBBLE (R7). -/
abbrev statusNibble : BitVec 4 := 0xF#4

/-- ABORT_MASK (R7): bits 0, 2 and 3, within the low nibble of header 1. -/
abbrev abortMask : BitVec 4 := 0xD#4

/-- PCER_BIT (R7). -/
abbrev pcerBit : Nat := 1

/-- V_BIT (R7). -/
abbrev vBit : Nat := 6

/-- I_BIT (R7). -/
abbrev iBit : Nat := 5

/-- P_BIT (R7). -/
abbrev pBit : Nat := 4

/-- The pulse counter wraps at this value, 2^PULSE_BITS (R7, R182). -/
abbrev pulseWrap : Nat := 65536

/-- E_DIV1 (R7, R183). -/
abbrev eDiv1 : Nat := 1000000

/-- E_DIV2 (R7, R183). -/
abbrev eDiv2 : Nat := 3600

/-- LINE_RATE (R7): informational, nothing in the block depends on it (R262). -/
abbrev lineRate : Nat := 4800

/-- FREE VALUE (log entry 10). A sum with an operand that is an infinity or a NaN: R12 takes operands
"exactly", and such an operand has no exact value. No run from reset reaches one (R12: "No value of the block
can overflow binary32"). -/
opaque nonFiniteSum : Numeric → Numeric → Numeric

/-- FREE VALUE (log entry 10). A product with an operand that is an infinity or a NaN. -/
opaque nonFiniteProduct : Numeric → Numeric → Numeric

/-- FREE VALUE (log entry 10). A quotient with an operand that is an infinity or a NaN, or with a zero
divisor. -/
opaque nonFiniteQuotient : Numeric → Numeric → Numeric

end Config

end Sys2Proof
end

