-- ==== Sys2Proof/Syntax.lean ====
section
/-!
DEFINITION. The instruction set as syntax: one constructor per row of spec/opcode_table.json.
spec/30_encoding.md R72, R73 (command words), R85 to R88 (frame bytes).
-/

namespace Sys2Proof

/-- One constructor per row of the opcode table.

The first six are command words (R72, R73); ignored bits are no operands (R74: "a word that differs only in
ignored bits is the same command"). The other seven are the classes of frame bytes at the positions 0, 1 and
20 (R85, R87, R88), which reach the block as the operand of a BYTE command. -/
inductive Instr where
  /-- NOP, OP 0x0 (R100). -/
  | nop
  /-- POLL, OP 0x1, `now` = ARG (R102). -/
  | poll (now : Time)
  /-- BYTE, OP 0x2, `b` = ARG[7:0] (R103). -/
  | byte (b : Byte)
  /-- PUBLISH, OP 0x3 (R190). -/
  | publish
  /-- RESERVED_4_7: `OP = {0b01, op}` (R73). -/
  | reserved47 (op : BitVec 2)
  /-- RESERVED_8_F: `OP = {0b1, op}` (R73). -/
  | reserved8F (op : BitVec 3)
  /-- HDR1_PRIMARY: header 1 equal to SYNC1_PRIMARY (R85). -/
  | hdr1Primary
  /-- HDR1_UNCAL: header 1 equal to SYNC1_LEGACY = UNCAL_SENTINEL (R85, R141). -/
  | hdr1Uncal
  /-- HDR1_STATUS_OK: a status-flagged header 1 with no abort bit; `pcer` is its bit 1 (R85, R142). -/
  | hdr1StatusOk (pcer : Bool)
  /-- HDR1_STATUS_ABORT: a status-flagged header 1 with an abort bit; `status` is its low nibble (R85, R142). -/
  | hdr1StatusAbort (status : BitVec 4)
  /-- HDR1_REJECT: any other header 1 (R85, R105). -/
  | hdr1Reject (h1 : Byte)
  /-- HDR2: header 2 equal to SYNC2 (R87, R106). -/
  | hdr2
  /-- ADJ: the adjustment byte, bit 7, the presence bits 6, 5 and 4, and bits 3:0 (R88, R146). -/
  | adj (ignored7 hv hi hp : Bool) (ignored30 : BitVec 4)
  deriving DecidableEq, Repr

/-- The frame position a frame-byte row belongs to: the table's formats FRAME_BYTE0, FRAME_BYTE1 and
FRAME_BYTE20. -/
inductive FramePos where
  | byte0
  | byte1
  | byte20
  deriving DecidableEq, Repr

/-- The frame position as a number (R82). -/
def FramePos.index : FramePos → Nat
  | .byte0 => 0
  | .byte1 => 1
  | .byte20 => 20

/-- An encoded instruction: a command word (R71), or a byte at a frame position (R82). -/
inductive Encoded where
  | cmd (w : CmdWord)
  | frame (pos : FramePos) (b : Byte)
  deriving DecidableEq, Repr

end Sys2Proof
end

