-- ==== Sys2Proof/WellFormed.lean ====
section
/-!
DEFINITION. Which instructions are well formed: a frame-byte row holds only the values of its class.
spec/30_encoding.md R85.
-/

namespace Sys2Proof

/-- HDR1_STATUS_ABORT is one of the 14 values with `h1 & 0x0D != 0`; HDR1_REJECT is one of the 238 values
matched by no other HDR1 row (R85). Every operand of every other row is allowed. -/
def Instr.wf : Instr → Bool
  | .hdr1StatusAbort status => status.getLsbD 0 || status.getLsbD 2 || status.getLsbD 3
  | .hdr1Reject h1 => h1 != 0x55#8 && h1 != 0xAA#8 && h1.toNat / 16 != 15
  | .nop => true
  | .poll _ => true
  | .byte _ => true
  | .publish => true
  | .reserved47 _ => true
  | .reserved8F _ => true
  | .hdr1Primary => true
  | .hdr1Uncal => true
  | .hdr1StatusOk _ => true
  | .hdr2 => true
  | .adj _ _ _ _ _ => true

end Sys2Proof
end

