-- ==== Sys2Proof/Decode.lean ====
section
/-!
DEFINITION. Decoding, total on every word, and after it the encoder.
spec/30_encoding.md R71 to R75 (command words), R85 to R88 (frame bytes).
-/

namespace Sys2Proof

/-- Why a word is no instruction. -/
inductive DecodeReject where
  /-- A byte at position 1 other than SYNC2 matches no row: the table has HDR2 only (R87, R106). -/
  | notHeader2
  deriving DecidableEq, Repr

/-- A command word is decoded by OP alone, and every OP is a row (R71, R72, R75). -/
def decodeCmd (w : CmdWord) : Instr :=
  let op := (w.extractLsb' 32 4).toNat
  if op = 0 then .nop
  else if op = 1 then .poll (w.extractLsb' 0 32)
  else if op = 2 then .byte (w.extractLsb' 0 8)
  else if op = 3 then .publish
  else if op < 8 then .reserved47 (w.extractLsb' 32 2)
  else .reserved8F (w.extractLsb' 32 3)

/-- The class of a byte at position 0 (R85, R86): every byte has one. -/
def decodeHdr1 (b : Byte) : Instr :=
  if b = Config.hw.sync1Primary then .hdr1Primary
  else if b = Config.hw.uncalSentinel then .hdr1Uncal
  else if b.extractLsb' 4 4 = Config.statusNibble then
    if b.extractLsb' 0 4 &&& Config.abortMask = 0#4 then .hdr1StatusOk (b.getLsbD Config.pcerBit)
    else .hdr1StatusAbort (b.extractLsb' 0 4)
  else .hdr1Reject b

/-- The fields of the adjustment byte (R88, R146). -/
def decodeAdj (b : Byte) : Instr :=
  .adj (b.getLsbD 7) (b.getLsbD Config.vBit) (b.getLsbD Config.iBit) (b.getLsbD Config.pBit)
    (b.extractLsb' 0 4)

/-- A frame byte is decoded by its position (R82). -/
def decodeFrameByte (pos : FramePos) (b : Byte) : Except DecodeReject Instr :=
  match pos with
  | .byte0 => .ok (decodeHdr1 b)
  | .byte1 => if b = Config.hw.sync2 then .ok .hdr2 else .error .notHeader2
  | .byte20 => .ok (decodeAdj b)

/-- The decoder of both encodings. -/
def decode : Encoded → Except DecodeReject Instr
  | .cmd w => .ok (decodeCmd w)
  | .frame pos b => decodeFrameByte pos b

/-- The command word with operation `op` and operand `arg` (R71). -/
def cmdWord (op : BitVec 4) (arg : BitVec 32) : CmdWord := op ++ arg

/-- The adjustment byte with these fields (R88). -/
def adjByte (ignored7 hv hi hp : Bool) (ignored30 : BitVec 4) : Byte :=
  BitVec.ofBool ignored7 ++ BitVec.ofBool hv ++ BitVec.ofBool hi ++ BitVec.ofBool hp ++ ignored30

/-- The status-flagged header with this low nibble (R86). -/
def statusByte (status : BitVec 4) : Byte := Config.statusNibble ++ status

/-- The word of an instruction, ignored bits zero (R72, R76, R85 to R88). -/
def encode : Instr → Encoded
  | .nop => .cmd (cmdWord 0x0#4 0#32)
  | .poll now => .cmd (cmdWord 0x1#4 now)
  | .byte b => .cmd (cmdWord 0x2#4 (b.setWidth 32))
  | .publish => .cmd (cmdWord 0x3#4 0#32)
  | .reserved47 op => .cmd (cmdWord (0b01#2 ++ op) 0#32)
  | .reserved8F op => .cmd (cmdWord (0b1#1 ++ op) 0#32)
  | .hdr1Primary => .frame .byte0 Config.hw.sync1Primary
  | .hdr1Uncal => .frame .byte0 Config.hw.uncalSentinel
  | .hdr1StatusOk pcer => .frame .byte0 (statusByte (0b00#2 ++ BitVec.ofBool pcer ++ 0b0#1))
  | .hdr1StatusAbort status => .frame .byte0 (statusByte status)
  | .hdr1Reject h1 => .frame .byte0 h1
  | .hdr2 => .frame .byte1 Config.hw.sync2
  | .adj ignored7 hv hi hp ignored30 => .frame .byte20 (adjByte ignored7 hv hi hp ignored30)

/-- The stream byte an instruction delivers to the frame buffer, if it delivers one: the operand of BYTE
(R103), or the byte a frame-byte row stands for (R50, R65). -/
def Instr.streamByte : Instr → Option Byte
  | .nop => none
  | .poll _ => none
  | .byte b => some b
  | .publish => none
  | .reserved47 _ => none
  | .reserved8F _ => none
  | .hdr1Primary => some Config.hw.sync1Primary
  | .hdr1Uncal => some Config.hw.uncalSentinel
  | .hdr1StatusOk pcer => some (statusByte (0b00#2 ++ BitVec.ofBool pcer ++ 0b0#1))
  | .hdr1StatusAbort status => some (statusByte status)
  | .hdr1Reject h1 => some h1
  | .hdr2 => some Config.hw.sync2
  | .adj ignored7 hv hi hp ignored30 => some (adjByte ignored7 hv hi hp ignored30)

/-- The frame position of a cursor value whose bytes have rows of their own (R82, R85 to R88). -/
def framePosOf (cur : Nat) : Option FramePos :=
  if cur = 0 then some .byte0 else if cur = 1 then some .byte1
  else if cur = 20 then some .byte20 else none

/-- The frame-byte row of byte `b` when the cursor is `cur`, if the table has one. -/
def frameRow (cur : Nat) (b : Byte) : Option Instr :=
  match framePosOf cur with
  | none => none
  | some pos =>
    match decodeFrameByte pos b with
    | .ok i => some i
    | .error _ => none

/-- A lone 8-bit word of the table, which names no frame position: the row with the longest mask wins, and
among rows of one length the first of the table (log entry 11). HDR2's mask is 0xFF, so it comes before
HDR1_REJECT, whose mask is 0x00; HDR1_REJECT comes before ADJ. -/
def decodeLoneByte (b : Byte) : Instr :=
  if b = Config.hw.sync2 then .hdr2 else decodeHdr1 b

/-- The host's reading of a table word: up to 8 bits a frame byte, longer words a command word; a number
that does not fit the word is refused. -/
def decodeTableWord (nbits w : Nat) : Option Instr :=
  if nbits ≤ 8 then
    if w < 2 ^ 8 then some (decodeLoneByte (BitVec.ofNat 8 w)) else none
  else
    if w < 2 ^ 36 then some (decodeCmd (BitVec.ofNat 36 w)) else none

end Sys2Proof
end

