-- ==== Sys2Proof/Machine/State.lean ====
section
/-!
DEFINITION. The state of the block, its response record, and the reasons a step can stop.
spec/10_state.md R20 (registers), spec/30_encoding.md R70, R78 to R80 (interface).
-/

namespace Sys2Proof.Machine

/-- The event codes (R80); the cause of each is in R220. -/
inductive Event where
  | none
  | byteAccepted
  | timeout
  | rejectHdr1
  | rejectHdr2
  | rejectChecksum
  | frameOk
  | frameUncalibrated
  | frameAbortStatus
  | frameZeroCycle
  | published
  | illegalCmd
  deriving DecidableEq, Repr

/-- The four-bit number of an event code (R80). -/
def Event.code : Event → BitVec 4
  | .none => 0x0#4
  | .byteAccepted => 0x1#4
  | .timeout => 0x2#4
  | .rejectHdr1 => 0x3#4
  | .rejectHdr2 => 0x4#4
  | .rejectChecksum => 0x5#4
  | .frameOk => 0x6#4
  | .frameUncalibrated => 0x7#4
  | .frameAbortStatus => 0x8#4
  | .frameZeroCycle => 0x9#4
  | .published => 0xA#4
  | .illegalCmd => 0xB#4

/-- The response record of a command (R78). A field no rule emits has its default, 0 or +0.0 (R79). -/
structure Response where
  evt : Event
  pos : BitVec 5 := 0#5
  info : BitVec 4 := 0#4
  warn : Bool := false
  drValid : Bool := false
  drHv : Bool := false
  drHi : Bool := false
  drHp : Bool := false
  drV : Numeric := 0#32
  drI : Numeric := 0#32
  drP : Numeric := 0#32
  drP0 : Bool := false
  drPcer : Bool := false
  drEdiff : Raw16 := 0#16
  drEinc : Numeric := 0#32
  pubVOk : Bool := false
  pubIOk : Bool := false
  pubPOk : Bool := false
  pubEOk : Bool := false
  pubV : Numeric := 0#32
  pubI : Numeric := 0#32
  pubP : Numeric := 0#32
  pubE : Numeric := 0#32
  deriving DecidableEq, Repr

/-- What the host drives (R3, R70): a command word, or an assertion and release of `rst`. `during` is the
command in progress when `rst` is asserted, if any; it is cancelled completely (R250). -/
inductive Input where
  | cmd (w : CmdWord)
  | rst (during : Option CmdWord)
  deriving DecidableEq, Repr

/-- The frame buffer's contents: address and byte pairs, addresses strictly rising, no entry equal to what an
unlisted address reads as (`Memory.wf`). -/
abbrev Memory := List Host.Cell

/-- What an unlisted address of the frame buffer reads as. DESIGN CHOICE, unsafe (log entry 2): the reset
content of `buf` is unspecified and never observable (R20, R35, R251). -/
abbrev Memory.unlisted : Byte := 0#8

/-- One quantity's accumulator: running sum and sample count (R28). -/
structure Acc where
  sum : Numeric
  cnt : Count
  deriving DecidableEq, Repr

/-- The energy totalizer's registers (R27, R29). -/
structure Energy where
  pulseValid : Bool
  pulseLast : Raw16
  total : Numeric
  pending : Count
  deriving DecidableEq, Repr

/-- The block's complete state (R20), and its interface signals (R70). -/
structure State where
  /-- `buf[0..23]` (R21). -/
  buf : Memory
  /-- `cur`: write cursor, values 0..23 (R22). -/
  cur : BitVec 5
  /-- `last_t`: time of the last invocation that consumed a byte (R23). -/
  lastT : Time
  /-- `inv_now`: `now` of the current invocation (R24). -/
  invNow : Time
  /-- `inv_fresh`: no byte consumed yet in the current invocation (R24). -/
  invFresh : Bool
  /-- `warn`: warning status (R25). -/
  warn : Bool
  /-- `v_sum`, `v_cnt` (R28). -/
  accV : Acc
  /-- `i_sum`, `i_cnt` (R28). -/
  accI : Acc
  /-- `p_sum`, `p_cnt` (R28). -/
  accP : Acc
  /-- `pulse_valid`, `pulse_last`, `e_total`, `e_pending` (R27, R29). -/
  energy : Energy
  /-- The host's inputs still to come, oldest first: the model's own field for `cmd` and `rst` (R70; log
  entry 1). -/
  inputs : List Input
  /-- `rsp`: the response of the last command, none before the first (R70, R78; log entry 4). -/
  rsp : Option Response
  deriving DecidableEq, Repr

/-- Which divisor is zero (R158). -/
inductive ZeroCycle where
  | voltage
  | power
  | current
  deriving DecidableEq, Repr

/-- The reasons the machine stops with a fault. -/
inductive Fault where
  /-- Raised by BYTE and the frame-byte rows when `cur` is 24..31: the store's address does not exist (R50).
  No run reaches such a cursor (R22). Safe (log entry 8). -/
  | addressOutsideBuffer
  /-- Raised by a frame with a zero divisor under ZERO_CYCLE_POLICY = FAULT (R155), so never by the hardware's
  parameters. Safe (log entry 5). -/
  | zeroCycle (which : ZeroCycle)
  deriving DecidableEq, Repr

/-- The reasons an instruction is given no meaning. -/
inductive Refusal where
  /-- An instruction exec has no meaning for yet: none. Safe. -/
  | notModelled (mnemonic : String)
  /-- Raised by a reserved OP in the proof model of R238, so never by the hardware's parameters. Safe (log
  entry 6). -/
  | reservedCommand
  /-- Raised by a frame that would take a count to 2^COUNT_WIDTH, in the proof model of R238 (R186), so never
  by the hardware's parameters. Safe (log entry 7). -/
  | countOverflow
  deriving DecidableEq, Repr

/-- What one command ends in. -/
abbrev Outcome := Host.Outcome State Fault Refusal

/-- The state when `rst` is released (R20, R250): the spec's values, `buf` and `pulse_last` by log entries 2
and 3, no input and no response yet by log entries 1 and 4. -/
def State.reset : State where
  buf := []
  cur := 0#5
  lastT := 0#32
  invNow := 0#32
  invFresh := true
  warn := false
  accV := { sum := 0#32, cnt := 0#32 }
  accI := { sum := 0#32, cnt := 0#32 }
  accP := { sum := 0#32, cnt := 0#32 }
  energy := { pulseValid := false, pulseLast := 0#16, total := 0#32, pending := 0#32 }
  inputs := []
  rsp := none

end Sys2Proof.Machine
end

