-- ==== Sys2Proof/Machine/Numeric.lean ====
section
/-!
DEFINITION. NUMERIC = BINARY32: rounding and the arithmetic every rule uses.
spec/00_scope.md R11, R12.
-/

namespace Sys2Proof.Machine

/-- Every finite binary32 value is a whole number of these per one: the least positive value is 2^-149. -/
abbrev unitsPerOne : Nat := 2 ^ 149

/-- The bit pattern of +infinity. -/
abbrev infinityBits : Nat := 0x7F800000

/-- The pattern (31 bits) of the binary32 value nearest to `n / d`, ties to even (R12), for `0 < d`.
In units of 2^-149 the quotient is cut at the last of its leading 24 bits and rounded there; adding the
position of the cut to the exponent field lets a carry out of the significand raise the exponent. Beyond the
largest finite value the result is +infinity, as IEEE 754 has it (PRESUMED, log entry 10); no value of the block comes there (R12). -/
def flMag (n d : Nat) : Nat :=
  let num := n * unitsPerOne
  let shift := (num / d).log2 - 23
  let den := d * 2 ^ shift
  let m := num / den
  let r := num % den
  let up := if den < 2 * r ∨ (2 * r = den ∧ m % 2 = 1) then 1 else 0
  min (shift * 2 ^ 23 + (m + up)) infinityBits

/-- `fl(n / d)`: the exact rational `n / d` rounded to binary32 (R11, R12), for `0 < d`. Zero is +0.0. -/
def fl (n : Int) (d : Nat) : Numeric :=
  if n < 0 then BitVec.ofNat 32 (2 ^ 31 + flMag n.natAbs d) else BitVec.ofNat 32 (flMag n.toNat d)

/-- `+0.0` (R11). -/
abbrev plusZero : Numeric := 0#32

/-- The exact value of a binary32 pattern in units of 2^-149; none for infinities and NaNs. -/
def numUnits (x : Numeric) : Option Int :=
  let e := x.toNat / 2 ^ 23 % 256
  let f := x.toNat % 2 ^ 23
  if e = 255 then none
  else
    let mag : Nat := if e = 0 then f else (2 ^ 23 + f) * 2 ^ (e - 1)
    some (if x.msb then -(mag : Int) else (mag : Int))

/-- `float(n)`: the integer `n` converted to the number format (R11). -/
def numOfNat (n : Nat) : Numeric := fl n 1

/-- `fl(n / d)` for a quotient of two unsigned fields (R147, R148, R151). -/
def numOfRatio (n d : Nat) : Numeric := fl n d

/-- `fl(x + y)` (R12). -/
def numAdd (x y : Numeric) : Numeric :=
  match numUnits x, numUnits y with
  | some a, some b => fl (a + b) unitsPerOne
  | _, _ => Config.nonFiniteSum x y

/-- `fl(x * y)` (R12). -/
def numMul (x y : Numeric) : Numeric :=
  match numUnits x, numUnits y with
  | some a, some b => fl (a * b) (unitsPerOne * unitsPerOne)
  | _, _ => Config.nonFiniteProduct x y

/-- `fl(x / y)` (R12). -/
def numDiv (x y : Numeric) : Numeric :=
  match numUnits x, numUnits y with
  | some a, some b => if b = 0 then Config.nonFiniteQuotient x y else fl (a * b.sign) b.natAbs
  | _, _ => Config.nonFiniteQuotient x y

end Sys2Proof.Machine
end

