-- ==== Sys2Proof/Machine/Ops.lean ====
section
/-!
DEFINITION. The shared operations over the frame buffer, the registers and the interface.
spec/20_memory.md R50 (buffer), spec/10_state.md R24 (invocation), spec/30_encoding.md R78, R79 (response),
spec/60_exceptions.md R226 (an outcome is the normal completion of its command: there is no trap to take and
none to return from), spec/70_reset_and_hazards.md R250 (reset).
-/

namespace Sys2Proof.Machine

/-- The canonical form: addresses of the buffer, strictly rising, no entry that says what an unlisted address
says. `above` is the least address the rest may list. -/
def Memory.wfFrom (above : Nat) : Memory → Bool
  | [] => true
  | (a, b) :: m =>
    decide (above ≤ a) && decide (a < Config.frameLen) && b != Memory.unlisted && Memory.wfFrom (a + 1) m

/-- The canonical form of the frame buffer. -/
def Memory.wf (m : Memory) : Bool := Memory.wfFrom 0 m

/-- `buf[a]` (R11). -/
def Memory.read : Memory → Nat → Byte
  | [], _ => Memory.unlisted
  | (k, v) :: m, a => if k = a then v else Memory.read m a

/-- `buf[a] <- b` (R11), keeping the canonical form. -/
def Memory.write : Memory → Nat → Byte → Memory
  | [], a, b => if b = Memory.unlisted then [] else [(a, b)]
  | (k, v) :: m, a, b =>
    if a < k then if b = Memory.unlisted then (k, v) :: m else (a, b) :: (k, v) :: m
    else if a = k then if b = Memory.unlisted then m else (a, b) :: m
    else (k, v) :: Memory.write m a b

/-- `MemRead(a, 1)`: none for an address that does not exist (R50). -/
def memRead (a : Nat) (s : State) : Option Byte :=
  if a < Config.frameLen then some (s.buf.read a) else none

/-- `MemWrite(a, 1, b)`: none for an address that does not exist (R50). -/
def memWrite (a : Nat) (b : Byte) (s : State) : Option State :=
  if a < Config.frameLen then some { s with buf := s.buf.write a b } else none

/-- The first byte of an invocation copies `inv_now` into `last_t` and clears `inv_fresh` (R24, R103). -/
def stampInvocation (s : State) : State :=
  if s.invFresh then { s with lastT := s.invNow, invFresh := false } else s

/-- The response a command emits; `warn` is never defaulted, it is the register after the command (R79). -/
def respond (r : Response) (s : State) : State := { s with rsp := some { r with warn := s.warn } }

/-- A completed or abandoned frame: the cursor goes back to 0 and `warn` takes this value (R103, R109). -/
def endFrame (warn : Bool) (s : State) : State := { s with cur := 0#5, warn := warn }

/-- What the host drives next. -/
inductive Fetched where
  | idle
  | reset (s : State)
  | command (w : CmdWord) (s : State)

/-- Take the host's oldest input (R3, R60: commands are consumed in order, each exactly once). -/
def takeInput (s : State) : Fetched :=
  match s.inputs with
  | [] => .idle
  | .rst _ :: rest => .reset { s with inputs := rest }
  | .cmd w :: rest => .command w { s with inputs := rest }

/-- `rst`: every register takes its reset value, and a command in progress leaves no effect (R250). The
host's later inputs are not the block's and stay. -/
def applyReset (s : State) : State := { State.reset with inputs := s.inputs }

end Sys2Proof.Machine
end

