-- ==== Sys2Proof/Machine/Operands.lean ====
section
/-!
DEFINITION. Operand assembly: the bits of header 1, the presence bits, and the frame's fields.
spec/30_encoding.md R82, R84 to R88, spec/41_decode.md R144, R146.
-/

namespace Sys2Proof.Machine

/-- `h1[7:4] = STATUS_NIBBLE`: a status-flagged header (R86). -/
def statusFlagged (h1 : Byte) : Bool := h1.extractLsb' 4 4 == Config.statusNibble

/-- `h1 & ABORT_MASK` (R86, R142). -/
def abortBits (h1 : Byte) : BitVec 4 := h1.extractLsb' 0 4 &&& Config.abortMask

/-- PCER: bit 1 of a status-flagged header, 0 of any other (R86, R142). -/
def pcerOf (h1 : Byte) : Bool := statusFlagged h1 && h1.getLsbD Config.pcerBit

/-- `be24(k)`: three bytes, the first the most significant (R11, R52). -/
def be24 (m : Memory) (k : Nat) : Raw24 := m.read k ++ m.read (k + 1) ++ m.read (k + 2)

/-- `be16(k)` (R11, R52). -/
def be16 (m : Memory) (k : Nat) : Raw16 := m.read k ++ m.read (k + 1)

/-- The fields of a frame (R82, R144). -/
structure Fields where
  vcoef : Raw24
  vcyc : Raw24
  ccoef : Raw24
  ccyc : Raw24
  pcoef : Raw24
  pcyc : Raw24
  adj : Byte
  cf : Raw16
  deriving DecidableEq, Repr

/-- The field extractor (R144). -/
def extractFields (m : Memory) : Fields where
  vcoef := be24 m 2
  vcyc := be24 m 5
  ccoef := be24 m 8
  ccyc := be24 m 11
  pcoef := be24 m 14
  pcyc := be24 m 17
  adj := m.read 20
  cf := be16 m 21

/-- `hv`: voltage present (R146). -/
def Fields.hv (f : Fields) : Bool := f.adj.getLsbD Config.vBit

/-- `hi`: current present (R146). -/
def Fields.hi (f : Fields) : Bool := f.adj.getLsbD Config.iBit

/-- `hp`: power present (R146). -/
def Fields.hp (f : Fields) : Bool := f.adj.getLsbD Config.pBit

end Sys2Proof.Machine
end

