-- ==== Sys2Proof/Machine/Flags.lean ====
section
/-!
DEFINITION. The conditions the block computes: the receive timeout and the frame validator.
spec/40_synchronizer.md R102, R104 to R108.
-/

namespace Sys2Proof.Machine

/-- `elapsed = (now - last_t) mod 2^TIME_WIDTH` (R102). -/
def elapsed (now lastT : Time) : Time := now - lastT

/-- The receive-timeout check (R102). -/
def timeoutFired (c : Params) (now lastT : Time) : Bool :=
  if c.timeoutInclusive then decide (Config.timeout ≤ (elapsed now lastT).toNat)
  else decide (Config.timeout < (elapsed now lastT).toNat)

/-- `hdr1_ok(x)` (R105). -/
def hdr1Ok (c : Params) (x : Byte) : Bool :=
  x == c.sync1Primary || statusFlagged x || x == c.sync1Legacy

/-- The exact sum of the body bytes, positions 2 to 22 (R108). -/
def bodySum (m : Memory) : Nat := ((List.range' 2 21).map fun k => (m.read k).toNat).sum

/-- The checksum check (R83, R108): the low 8 bits of the sum against byte 23. -/
def checksumOk (m : Memory) : Bool := bodySum m % 256 == (m.read Config.lastPos).toNat

/-- `valid(p)`, the frame validator (R104). There is no position above 23. -/
def valid (c : Params) (m : Memory) (p : Nat) : Bool :=
  if p = 0 then hdr1Ok c (m.read 0)
  else if p = 1 then m.read 1 == c.sync2
  else if p = Config.lastPos then checksumOk m
  else decide (p < Config.lastPos)

/-- The event of a byte rejected at position `p` (R103). -/
def rejectEvent (p : Nat) : Event :=
  if p = 0 then .rejectHdr1 else if p = 1 then .rejectHdr2 else .rejectChecksum

end Sys2Proof.Machine
end

