-- ==== Sys2Proof/Machine/Frame.lean ====
section
/-!
DEFINITION. `decode`: the field decoder and unit converter, a pure function of the frame buffer.
spec/41_decode.md R140 to R158.
-/

namespace Sys2Proof.Machine

/-- `info` of a zero divisor (R81, R158). -/
def zeroCycleInfo : ZeroCycle → BitVec 4
  | .voltage => 1#4
  | .power => 2#4
  | .current => 3#4

/-- The decode record of an `Ok` frame (R140). -/
structure DecodeRecord where
  hv : Bool
  v : Numeric
  hi : Bool
  i : Numeric
  hp : Bool
  p : Numeric
  p0 : Bool
  pcer : Bool
  pcoef : Raw24
  cf : Raw16
  deriving DecidableEq, Repr

/-- The outcome of `decode` (R140). -/
inductive DecodeOutcome where
  | uncalibrated
  | abortStatus (bits : BitVec 4)
  | zeroCycle (which : ZeroCycle)
  | ok (r : DecodeRecord)
  deriving DecidableEq, Repr

/-- A value, or the divisor that is zero. -/
inductive Converted (α : Type) where
  | value (x : α)
  | zero (which : ZeroCycle)
  deriving DecidableEq, Repr

/-- A field pair's quotient, in the number format; a zero divisor ends the frame (R147, R155). -/
def convertRatio (which : ZeroCycle) (coef cyc : Raw24) : Converted Numeric :=
  if cyc = 0#24 then .zero which else .value (numOfRatio coef.toNat cyc.toNat)

/-- Step 5: voltage (R147). -/
def convertVoltage (f : Fields) : Converted Numeric :=
  if f.hv then convertRatio .voltage f.vcoef f.vcyc else .value plusZero

/-- Step 6: power; PCER forces +0.0 and does not divide (R148). -/
def convertPower (pcer : Bool) (f : Fields) : Converted Numeric :=
  if f.hp then if pcer then .value plusZero else convertRatio .power f.pcoef f.pcyc
  else .value plusZero

/-- Step 7: current, and `p0`, the extra zero power sample (R149 to R153). `p` is the power of step 6. -/
def convertCurrent (p : Numeric) (f : Fields) : Converted (Numeric × Bool) :=
  if f.hi then
    if f.hv && !f.hp then .value (plusZero, true)
    else if f.hp && p != plusZero then
      match convertRatio .current f.ccoef f.ccyc with
      | .value i => .value (i, false)
      | .zero w => .zero w
    else .value (plusZero, false)
  else .value (plusZero, false)

/-- Steps 4 to 7, in their order: the first zero divisor is the one reported (R158). -/
def convertFields (pcer : Bool) (f : Fields) : DecodeOutcome :=
  match convertVoltage f with
  | .zero w => .zeroCycle w
  | .value v =>
    match convertPower pcer f with
    | .zero w => .zeroCycle w
    | .value p =>
      match convertCurrent p f with
      | .zero w => .zeroCycle w
      | .value (i, p0) =>
        .ok { hv := f.hv, v := v, hi := f.hi, i := i, hp := f.hp, p := p, p0 := p0, pcer := pcer,
              pcoef := f.pcoef, cf := f.cf }

/-- `decode()` (R140): the sentinel test, then the status test, then the fields (R143). -/
def decodeFrame (c : Params) (m : Memory) : DecodeOutcome :=
  let h1 := m.read 0
  if h1 = c.uncalSentinel then .uncalibrated
  else if statusFlagged h1 && abortBits h1 != 0#4 then .abortStatus (abortBits h1)
  else convertFields (pcerOf h1) (extractFields m)

end Sys2Proof.Machine
end

