-- ==== Sys2Proof/Machine/Accumulate.lean ====
section
/-!
DEFINITION. The energy totalizer, the accumulators, `commit`, and the drains.
spec/41_decode.md R160, spec/42_energy_accumulate.md R180 to R188.
-/

namespace Sys2Proof.Machine

/-- The pulse difference (R180 to R182): zero on the first call, else modulo 65536. -/
def pulseDiff (e : Energy) (cf : Raw16) : Raw16 :=
  if !e.pulseValid then 0#16
  else if cf.toNat < e.pulseLast.toNat then
    BitVec.ofNat 16 (cf.toNat + (Config.pulseWrap - e.pulseLast.toNat))
  else BitVec.ofNat 16 (cf.toNat - e.pulseLast.toNat)

/-- The energy increment, left to right, one rounding per operation (R183). -/
def energyIncrement (diff : Raw16) (pcoef : Raw24) : Numeric :=
  numDiv (numDiv (numMul (numOfNat diff.toNat) (numOfNat pcoef.toNat)) (numOfNat Config.eDiv1))
    (numOfNat Config.eDiv2)

/-- The registers after `energy_step(pcoef, cf)` (R180, R184); the counts wrap (R186). -/
def energyStep (pcoef : Raw24) (cf : Raw16) (e : Energy) : Energy where
  pulseValid := true
  pulseLast := cf
  total := numAdd e.total (energyIncrement (pulseDiff e cf) pcoef)
  pending := e.pending + 1#32

/-- `acc_add(Q, x)` (R185, R186). -/
def accAdd (x : Numeric) (a : Acc) : Acc where
  sum := numAdd a.sum x
  cnt := a.cnt + 1#32

/-- The registers `commit(r)` writes (R160). Under R152 the frame has no power and `r.p0` adds one sample of
+0.0. -/
def commitRegs (r : DecodeRecord) (s : State) : State :=
  let accV := if r.hv then accAdd r.v s.accV else s.accV
  let accI := if r.hi then accAdd r.i s.accI else s.accI
  let accP := if r.hp then accAdd r.p s.accP else s.accP
  let accP := if r.p0 then accAdd plusZero accP else accP
  let energy := if r.hp then energyStep r.pcoef r.cf s.energy else s.energy
  { s with accV := accV, accI := accI, accP := accP, energy := energy }

/-- The response fields `commit(r)` emits (R160, R180). `e` is the energy state before the step. -/
def commitResponse (r : DecodeRecord) (e : Energy) : Response where
  evt := .frameOk
  pos := 23#5
  drValid := true
  drHv := r.hv
  drHi := r.hi
  drHp := r.hp
  drV := r.v
  drI := r.i
  drP := r.p
  drP0 := r.p0
  drPcer := r.pcer
  drEdiff := if r.hp then pulseDiff e r.cf else 0#16
  drEinc := if r.hp then energyIncrement (pulseDiff e r.cf) r.pcoef else plusZero

/-- `commit(r)` would take a count to 2^COUNT_WIDTH (R186, R238). -/
def commitOverflows (r : DecodeRecord) (s : State) : Bool :=
  (r.hv && s.accV.cnt == BitVec.allOnes 32) || (r.hi && s.accI.cnt == BitVec.allOnes 32)
    || ((r.hp || r.p0) && s.accP.cnt == BitVec.allOnes 32)
    || (r.hp && s.energy.pending == BitVec.allOnes 32)

/-- What `drain(Q)` returns (R187): the mean, or nothing. -/
def drainValue (a : Acc) : Option Numeric :=
  if a.cnt = 0#32 then none else some (numDiv a.sum (numOfNat a.cnt.toNat))

/-- The pair after `drain(Q)` (R187): cleared if it delivered, else unchanged. -/
def drainAcc (a : Acc) : Acc := if a.cnt = 0#32 then a else { sum := plusZero, cnt := 0#32 }

/-- What the energy drain returns (R188): the lifetime total, not a mean. -/
def drainEnergyValue (e : Energy) : Option Numeric := if e.pending = 0#32 then none else some e.total

/-- The registers after the energy drain (R188): only the pending count is cleared. -/
def drainEnergy (e : Energy) : Energy := { e with pending := 0#32 }

end Sys2Proof.Machine
end

