-- ==== Sys2Proof/Machine/Publish.lean ====
section
/-!
DEFINITION. PUBLISH: drain every accumulator and release the energy total.
spec/42_energy_accumulate.md R187 to R190.
-/

namespace Sys2Proof.Machine

/-- The response of PUBLISH (R190); a drain that returns nothing leaves `*_ok` 0 and the value +0.0. -/
def publishResponse (s : State) : Response where
  evt := .published
  pubVOk := (drainValue s.accV).isSome
  pubV := (drainValue s.accV).getD plusZero
  pubIOk := (drainValue s.accI).isSome
  pubI := (drainValue s.accI).getD plusZero
  pubPOk := (drainValue s.accP).isSome
  pubP := (drainValue s.accP).getD plusZero
  pubEOk := (drainEnergyValue s.energy).isSome
  pubE := (drainEnergyValue s.energy).getD plusZero

/-- The registers after PUBLISH (R190). -/
def publishRegs (s : State) : State :=
  { s with accV := drainAcc s.accV, accI := drainAcc s.accI, accP := drainAcc s.accP,
           energy := drainEnergy s.energy }

/-- PUBLISH (R190): the four drains are one atomic step (R61). -/
def publishCommand (s : State) : State := respond (publishResponse s) (publishRegs s)

/-- PUBLISH (R190). -/
def execPublish (s : State) : Outcome := .next (publishCommand s)

end Sys2Proof.Machine
end

