-- ==== Sys2Proof/Machine/Synchronizer.lean ====
section
/-!
DEFINITION. The commands that move bytes into the frame buffer, for any parameters: NOP, POLL, BYTE, the
reserved commands, and the meanings of the command rows and of the frame-byte rows.
spec/40_synchronizer.md R100 to R112, spec/41_decode.md R159, R160, spec/30_encoding.md R73.
-/

namespace Sys2Proof.Machine

/-- NOP (R100). -/
def nopCommand (s : State) : State := respond { evt := .none } s

/-- POLL (R102). -/
def pollCommand (c : Params) (now : Time) (s : State) : State :=
  let fired := timeoutFired c now s.lastT
  respond { evt := if fired then .timeout else .none }
    { s with cur := if fired then 0#5 else s.cur, invNow := now, invFresh := true }

/-- A reserved OP: no register changes, EV_ILLEGAL_CMD (R73); the proof model refuses it (R238). -/
def reservedCommand (c : Params) (s : State) : Outcome :=
  match c.reserved with
  | .respond => .next (respond { evt := .illegalCmd } s)
  | .refuse => .refused .reservedCommand

/-- A byte rejected at position `p`: resync, the cursor is not advanced (R103, R109). -/
def rejectByte (p : BitVec 5) (s : State) : State :=
  respond { evt := rejectEvent p.toNat, pos := p } (endFrame true s)

/-- A byte accepted at a position before the last (R103). -/
def acceptByte (p : BitVec 5) (s : State) : State :=
  respond { evt := .byteAccepted, pos := p } { s with cur := p + 1#5 }

/-- A completed frame that the decoder discards: no register but `warn` and `cur` changes (R159). -/
def discardFrame (evt : Event) (info : BitVec 4) (s : State) : State :=
  respond { evt := evt, pos := 23#5, info := info } (endFrame false s)

/-- A completed frame that is committed (R159, R160). -/
def commitFrame (r : DecodeRecord) (s : State) : State :=
  respond (commitResponse r s.energy) (endFrame false (commitRegs r s))

/-- A frame whose checksum matches: decode it, and commit or discard it (R103, R159). -/
def completeFrame (c : Params) (s : State) : Outcome :=
  match decodeFrame c s.buf with
  | .uncalibrated => .next (discardFrame .frameUncalibrated 0#4 s)
  | .abortStatus bits => .next (discardFrame .frameAbortStatus bits s)
  | .zeroCycle w =>
    match c.zeroCycle with
    | .discardFrame => .next (discardFrame .frameZeroCycle (zeroCycleInfo w) s)
    | .fault => .fault (.zeroCycle w)
  | .ok r =>
    match c.countOverflow with
    | .wrap => .next (commitFrame r s)
    | .refuse => if commitOverflows r s then .refused .countOverflow else .next (commitFrame r s)

/-- The byte at position `p` has been stored: validate it, then reject, complete or accept (R103). -/
def checkByte (c : Params) (p : BitVec 5) (s : State) : Outcome :=
  if valid c s.buf p.toNat then
    if p.toNat = Config.lastPos then completeFrame c s else .next (acceptByte p s)
  else .next (rejectByte p s)

/-- BYTE (R103): stamp the invocation, store at the cursor, validate. -/
def deliverByte (c : Params) (b : Byte) (s : State) : Outcome :=
  match memWrite s.cur.toNat b (stampInvocation s) with
  | none => .fault .addressOutsideBuffer
  | some s' => checkByte c s.cur s'

/-- NOP (R100). -/
def execNop (s : State) : Outcome := .next (nopCommand s)

/-- POLL (R102). -/
def execPoll (now : Time) (s : State) : Outcome := .next (pollCommand Config.hw now s)

/-- BYTE (R103). -/
def execByte (b : Byte) (s : State) : Outcome := deliverByte Config.hw b s

/-- RESERVED_4_7 (R73): the operation's low bits have no meaning. -/
def execReserved47 (_op : BitVec 2) (s : State) : Outcome := reservedCommand Config.hw s

/-- RESERVED_8_F (R73): the operation's low bits have no meaning. -/
def execReserved8F (_op : BitVec 3) (s : State) : Outcome := reservedCommand Config.hw s

/-- HDR1_PRIMARY (R85, R105): the byte 0x55 arrives from the stream. What a stream byte is, the cursor says
(R21, R22), so away from position 0 it is an ordinary byte (log entry 12). -/
def execHdr1Primary (s : State) : Outcome := deliverByte Config.hw Config.hw.sync1Primary s

/-- HDR1_UNCAL (R85, R141): the byte 0xAA arrives from the stream. -/
def execHdr1Uncal (s : State) : Outcome := deliverByte Config.hw Config.hw.uncalSentinel s

/-- HDR1_STATUS_OK (R85, R142): the byte 0xF0 or 0xF2 arrives from the stream. -/
def execHdr1StatusOk (pcer : Bool) (s : State) : Outcome :=
  deliverByte Config.hw (statusByte (0b00#2 ++ BitVec.ofBool pcer ++ 0b0#1)) s

/-- HDR1_STATUS_ABORT (R85, R142): a status-flagged byte with an abort bit arrives from the stream. -/
def execHdr1StatusAbort (status : BitVec 4) (s : State) : Outcome :=
  deliverByte Config.hw (statusByte status) s

/-- HDR1_REJECT (R85, R105): a byte of no header-1 class arrives from the stream. -/
def execHdr1Reject (h1 : Byte) (s : State) : Outcome := deliverByte Config.hw h1 s

/-- HDR2 (R87, R106): the byte 0x5A arrives from the stream. -/
def execHdr2 (s : State) : Outcome := deliverByte Config.hw Config.hw.sync2 s

/-- ADJ (R88, R146): an adjustment byte arrives from the stream. -/
def execAdj (ignored7 hv hi hp : Bool) (ignored30 : BitVec 4) (s : State) : Outcome :=
  deliverByte Config.hw (adjByte ignored7 hv hi hp ignored30) s

end Sys2Proof.Machine
end

