-- ==== Sys2Proof/Machine/Dispatch.lean ====
section
/-!
DEFINITION. The meaning of every instruction: one arm per row of spec/opcode_table.json.
-/

namespace Sys2Proof.Machine

def exec (i : Instr) (s : State) : Host.Outcome State Fault Refusal :=
  match i with
  -- command words (spec/30_encoding.md R72, R73)
  | .nop => Sys2Proof.Machine.execNop s
  | .poll now => Sys2Proof.Machine.execPoll now s
  | .byte b => Sys2Proof.Machine.execByte b s
  | .publish => Sys2Proof.Machine.execPublish s
  | .reserved47 op => Sys2Proof.Machine.execReserved47 op s
  | .reserved8F op => Sys2Proof.Machine.execReserved8F op s
  -- frame bytes (spec/30_encoding.md R85 to R88)
  | .hdr1Primary => Sys2Proof.Machine.execHdr1Primary s
  | .hdr1Uncal => Sys2Proof.Machine.execHdr1Uncal s
  | .hdr1StatusOk pcer => Sys2Proof.Machine.execHdr1StatusOk pcer s
  | .hdr1StatusAbort status => Sys2Proof.Machine.execHdr1StatusAbort status s
  | .hdr1Reject h1 => Sys2Proof.Machine.execHdr1Reject h1 s
  | .hdr2 => Sys2Proof.Machine.execHdr2 s
  | .adj ignored7 hv hi hp ignored30 => Sys2Proof.Machine.execAdj ignored7 hv hi hp ignored30 s

end Sys2Proof.Machine
end

