-- ==== Sys2Proof/Machine/Step.lean ====
section
/-!
DEFINITION. One step: the host's next input, a command or an assertion of `rst`.
spec/00_scope.md R3, R9, spec/20_memory.md R60, spec/30_encoding.md R75, spec/70_reset_and_hazards.md R250.
-/

namespace Sys2Proof.Machine

/-- One transaction. With no input the block holds its state (R237). -/
def step (s : State) : Host.Outcome State Fault Refusal :=
  match takeInput s with
  | .idle => .next s
  | .reset s' => .next (applyReset s')
  | .command w s' => exec (decodeCmd w) s'

/-- The command word that presents a table word: a word of up to 8 bits is a stream byte, which reaches the
block as the operand of BYTE (R50, R65); a longer one is the command word itself (log entries 1, 11). -/
def presentedWord (nbits w : Nat) : CmdWord :=
  if nbits ≤ 8 then cmdWord 0x2#4 (BitVec.ofNat 32 (w % 2 ^ nbits))
  else BitVec.ofNat 36 (w % 2 ^ nbits)

/-- The state in which the host presents this word next. -/
def State.withFetchWord (s : State) (nbits w : Nat) : State :=
  { s with inputs := .cmd (presentedWord nbits w) :: s.inputs }

end Sys2Proof.Machine
end

