-- ==== Sys2Proof/Machine/ProofModel.lean ====
section
/-!
DEFINITION. The block for any parameters of R7, and with `Config.proofModel` the machine of R238, which
stops on a reserved command, a zero divisor and a count overflow. The hardware is `exec` and `step`.
spec/00_scope.md R7, spec/60_exceptions.md R238.
-/

namespace Sys2Proof.Machine

/-- The meaning of an instruction for the parameters `c`. -/
def execWith (c : Params) (i : Instr) (s : State) : Outcome :=
  match i with
  | .nop => .next (nopCommand s)
  | .poll now => .next (pollCommand c now s)
  | .byte b => deliverByte c b s
  | .publish => .next (publishCommand s)
  | .reserved47 _ => reservedCommand c s
  | .reserved8F _ => reservedCommand c s
  | .hdr1Primary => deliverByte c Config.hw.sync1Primary s
  | .hdr1Uncal => deliverByte c Config.hw.uncalSentinel s
  | .hdr1StatusOk pcer => deliverByte c (statusByte (0b00#2 ++ BitVec.ofBool pcer ++ 0b0#1)) s
  | .hdr1StatusAbort status => deliverByte c (statusByte status) s
  | .hdr1Reject h1 => deliverByte c h1 s
  | .hdr2 => deliverByte c Config.hw.sync2 s
  | .adj ignored7 hv hi hp ignored30 => deliverByte c (adjByte ignored7 hv hi hp ignored30) s

/-- One transaction of the block with the parameters `c`. -/
def stepWith (c : Params) (s : State) : Outcome :=
  match takeInput s with
  | .idle => .next s
  | .reset s' => .next (applyReset s')
  | .command w s' => execWith c (decodeCmd w) s'

end Sys2Proof.Machine
end

