-- ==== Sys2Proof/Machine/Trace.lean ====
section
/-!
DEFINITION. The trace syntax: statements, pseudo-instructions and their expansion into the host's inputs, and
the reading of a line of text (log entry 13).
spec/30_encoding.md R76, R77, spec/00_scope.md R4.
-/

namespace Sys2Proof.Machine

/-- A statement of a trace (R76, R77). -/
inductive Stmt where
  | nop
  | poll (n : Nat)
  | byte (b : Nat)
  | publish
  | bytes (bs : List Nat)
  | frame (bs : List Nat)
  | invoke (n : Nat) (bs : List Nat)
  | reset
  deriving DecidableEq, Repr

/-- `BYTE b`, for `b < 256` (R76). -/
def byteInput (b : Nat) : Option Input :=
  if b < 2 ^ 8 then some (.cmd (cmdWord 0x2#4 (BitVec.ofNat 32 b))) else none

/-- `BYTES b0 ... bk` (R77). -/
def byteInputs : List Nat → Option (List Input)
  | [] => some []
  | b :: bs =>
    match byteInput b, byteInputs bs with
    | some i, some is => some (i :: is)
    | _, _ => none

/-- `POLL n`, for `n < 2^32` (R76). -/
def pollInput (n : Nat) : Option Input :=
  if n < 2 ^ 32 then some (.cmd (cmdWord 0x1#4 (BitVec.ofNat 32 n))) else none

/-- The inputs a statement stands for; none where an operand is out of range or FRAME has not 24 operands
(R76, R77). DESIGN CHOICE (log entry 13): BYTES with no operand is no statement; R77 gives a bound on `k` only for
INVOKE. -/
def Stmt.expand : Stmt → Option (List Input)
  | .nop => some [.cmd (cmdWord 0x0#4 0#32)]
  | .poll n => (pollInput n).map fun i => [i]
  | .byte b => (byteInput b).map fun i => [i]
  | .publish => some [.cmd (cmdWord 0x3#4 0#32)]
  | .bytes bs => if bs.isEmpty then none else byteInputs bs
  | .frame bs => if bs.length = Config.frameLen then byteInputs bs else none
  | .invoke n bs =>
    match pollInput n, byteInputs bs with
    | some i, some is => some (i :: is)
    | _, _ => none
  | .reset => some [.rst none]

/-- The inputs of a trace, in order (R76). -/
def expandTrace : List Stmt → Option (List Input)
  | [] => some []
  | t :: ts =>
    match t.expand, expandTrace ts with
    | some is, some js => some (is ++ js)
    | _, _ => none

/-- The value of a digit in base 16. -/
def digitValue (ch : Char) : Option Nat :=
  let n := ch.toNat
  if 48 ≤ n ∧ n ≤ 57 then some (n - 48)
  else if 65 ≤ n ∧ n ≤ 70 then some (n - 55)
  else if 97 ≤ n ∧ n ≤ 102 then some (n - 87)
  else none

/-- A run of digits in a base. -/
def readDigits (base : Nat) : Nat → List Char → Option Nat
  | acc, [] => some acc
  | acc, ch :: rest =>
    match digitValue ch with
    | some d => if d < base then readDigits base (acc * base + d) rest else none
    | none => none

/-- A number: decimal, or hexadecimal with `0x` (R76). -/
def readNumber : List Char → Option Nat
  | [] => none
  | ['0', 'x'] => none
  | '0' :: 'x' :: digits => readDigits 16 0 digits
  | digits => readDigits 10 0 digits

/-- The line without its comment: `;` starts one, to the end of the line (R76). -/
def dropComment : List Char → List Char
  | [] => []
  | ch :: rest => if ch = ';' then [] else ch :: dropComment rest

/-- The words of a line; `word` is the word read so far, last character first. -/
def splitWords : List Char → List Char → List (List Char)
  | word, [] => if word.isEmpty then [] else [word.reverse]
  | word, ch :: rest =>
    if ch = ' ' ∨ ch = '\t' ∨ ch = '\r' then
      if word.isEmpty then splitWords [] rest else word.reverse :: splitWords [] rest
    else splitWords (ch :: word) rest

/-- Every word read as a number. -/
def readNumbers : List (List Char) → Option (List Nat)
  | [] => some []
  | w :: ws =>
    match readNumber w, readNumbers ws with
    | some n, some ns => some (n :: ns)
    | _, _ => none

/-- A mnemonic and its operands (R76, R77). -/
def readStmt (mnemonic : List Char) (ops : List Nat) : Option Stmt :=
  if mnemonic = ['N', 'O', 'P'] then if ops = [] then some .nop else none
  else if mnemonic = ['P', 'U', 'B', 'L', 'I', 'S', 'H'] then if ops = [] then some .publish else none
  else if mnemonic = ['R', 'E', 'S', 'E', 'T'] then if ops = [] then some .reset else none
  else if mnemonic = ['P', 'O', 'L', 'L'] then
    match ops with
    | [n] => some (.poll n)
    | _ => none
  else if mnemonic = ['B', 'Y', 'T', 'E'] then
    match ops with
    | [b] => some (.byte b)
    | _ => none
  else if mnemonic = ['B', 'Y', 'T', 'E', 'S'] then some (.bytes ops)
  else if mnemonic = ['F', 'R', 'A', 'M', 'E'] then some (.frame ops)
  else if mnemonic = ['I', 'N', 'V', 'O', 'K', 'E'] then
    match ops with
    | n :: bs => some (.invoke n bs)
    | [] => none
  else none

/-- The statements of one line of text: none where it is no statement, an empty list for a blank line or a
comment (R76). -/
def readLine (line : List Char) : Option (List Stmt) :=
  match splitWords [] (dropComment line) with
  | [] => some []
  | w :: ws =>
    match readNumbers ws with
    | some ops => (readStmt w ops).map fun t => [t]
    | none => none

end Sys2Proof.Machine
end

