-- ==== Sys2Proof/Safety.lean ====
section
/-!
DEFINITION. What claims speak of: the invariant of every run, the constraints on parameters, which parts of
the state the host can never observe, and the host's obligations.
spec/10_state.md R22, R35, R36, spec/00_scope.md R7, R12, spec/70_reset_and_hazards.md R251, R255.
-/

namespace Sys2Proof.Machine

/-- The constraints of R7 on the sync values and the sentinel. -/
def paramsOk (c : Params) : Bool :=
  hdr1Ok c c.uncalSentinel && c.uncalSentinel != c.sync1Primary && !hdr1Ok c 0x5A#8
    && !statusFlagged c.uncalSentinel

/-- The pattern of 2^49, which no running sum exceeds: a sample is at most 2^24, half a unit in the last place
of 2^49 is 2^25, so such a sum absorbs every further sample (R12, R36). -/
abbrev sumBound : Nat := 0x58000000

/-- The pattern of 2^34, which the energy total never exceeds: an increment is below 2^9 (R183). -/
abbrev totalBound : Nat := 0x50800000

/-- The bytes before the cursor were accepted at their positions (R35). -/
def headersAccepted (c : Params) (s : State) : Bool :=
  (s.cur == 0#5 || hdr1Ok c (s.buf.read 0)) &&
    (s.cur == 0#5 || s.cur == 1#5 || s.buf.read 1 == c.sync2)

/-- The invariant of the block: the buffer is in canonical form, the cursor is a frame position (R22), the
bytes before it were accepted (R35), and the sums and the total are finite and not negative (R12, R36). -/
structure State.Inv (s : State) : Prop where
  bufWf : s.buf.wf = true
  curInFrame : s.cur.toNat < Config.frameLen
  headers : headersAccepted Config.hw s = true
  sumV : s.accV.sum.toNat ≤ sumBound
  sumI : s.accI.sum.toNat ≤ sumBound
  sumP : s.accP.sum.toNat ≤ sumBound
  total : s.energy.total.toNat ≤ totalBound

/-- Two states that differ at most in what the host can never observe: buffer bytes at and above the cursor,
and `pulse_last` while `pulse_valid = 0` (R27, R35, R251). -/
structure State.Alike (s t : State) : Prop where
  buf : ∀ k, k < s.cur.toNat → s.buf.read k = t.buf.read k
  cur : s.cur = t.cur
  lastT : s.lastT = t.lastT
  invNow : s.invNow = t.invNow
  invFresh : s.invFresh = t.invFresh
  warn : s.warn = t.warn
  accV : s.accV = t.accV
  accI : s.accI = t.accI
  accP : s.accP = t.accP
  pulseValid : s.energy.pulseValid = t.energy.pulseValid
  pulseLast : s.energy.pulseValid = true → s.energy.pulseLast = t.energy.pulseLast
  total : s.energy.total = t.energy.total
  pending : s.energy.pending = t.energy.pending
  inputs : s.inputs = t.inputs
  rsp : s.rsp = t.rsp

/-- The host's inputs that deliver these bytes (R77 BYTES). -/
def deliverInputs (bs : List Byte) : List Input :=
  bs.map fun b => .cmd (cmdWord 0x2#4 (b.setWidth 32))

/-- Write these bytes from address `k` on. -/
def writeBytes : Nat → List Byte → Memory → Memory
  | _, [], m => m
  | k, b :: bs, m => writeBytes (k + 1) bs (m.write k b)

/-- A buffer that holds these bytes from address 0 (R21). -/
def bufferOf (bs : List Byte) : Memory := writeBytes 0 bs []

/-- The state after a stream byte `b` that commits nothing, as R103 writes it: stored at the cursor, the
invocation stamped, the cursor and `warn` at these values, this response with `warn` in it. -/
def afterByte (b : Byte) (cur : BitVec 5) (warn : Bool) (r : Response) (s : State) : State :=
  { s with
    buf := s.buf.write s.cur.toNat b
    cur := cur
    lastT := if s.invFresh then s.invNow else s.lastT
    invFresh := false
    warn := warn
    rsp := some { r with warn := warn } }

/-- The sum of the body bytes, positions 2 to 22 (R108), written as a sum over an interval. -/
def bodyTotal (m : Memory) : Nat := ∑ k ∈ Finset.Icc 2 22, (m.read k).toNat

/-- The byte `b` completes a frame in the state `s`: it is the byte at position 23 and the checksum matches
(R103, R108). -/
def CompletesFrame (b : Byte) (s : State) : Prop :=
  s.buf.wf = true ∧ s.cur = 23#5 ∧ bodyTotal s.buf % 256 = b.toNat

/-- Committing `r` takes one of the four counts to 2^COUNT_WIDTH (R186). -/
def CountWouldWrap (r : DecodeRecord) (s : State) : Prop :=
  (r.hv = true ∧ s.accV.cnt.toNat = 2 ^ 32 - 1) ∨ (r.hi = true ∧ s.accI.cnt.toNat = 2 ^ 32 - 1) ∨
    ((r.hp = true ∨ r.p0 = true) ∧ s.accP.cnt.toNat = 2 ^ 32 - 1) ∨
    (r.hp = true ∧ s.energy.pending.toNat = 2 ^ 32 - 1)

/-- The three cases of R238: a reserved command, a zero divisor, a count reaching 2^COUNT_WIDTH. -/
def ProofModelStops (i : Instr) (s : State) : Prop :=
  (∃ op, i = .reserved47 op) ∨ (∃ op, i = .reserved8F op) ∨
    ∃ b, i.streamByte = some b ∧ CompletesFrame b s ∧
      ((∃ w, decodeFrame Config.hw (s.buf.write 23 b) = .zeroCycle w) ∨
        ∃ r, decodeFrame Config.hw (s.buf.write 23 b) = .ok r ∧ CountWouldWrap r s)

/-- The accumulators and the energy registers, which only `commit` and PUBLISH write (R20). -/
def SameQuantities (s t : State) : Prop :=
  t.accV = s.accV ∧ t.accI = s.accI ∧ t.accP = s.accP ∧ t.energy = s.energy

/-- R255(a), as far as the input stream shows it: after `rst`, no BYTE comes before the first POLL. -/
def pollsFirst : Bool → List Input → Bool
  | _, [] => true
  | _, .rst _ :: rest => pollsFirst false rest
  | polled, .cmd w :: rest =>
    match decodeCmd w with
    | .poll _ => pollsFirst true rest
    | .byte _ => polled && pollsFirst polled rest
    | _ => pollsFirst polled rest

/-- The value of a finite binary32 pattern (R12); 0 for the patterns that have none. -/
def numValue (x : Numeric) : ℚ := ((numUnits x).getD 0 : ℚ) / (unitsPerOne : ℚ)

end Sys2Proof.Machine
end

