-- ==== Sys2Proof/Certificates/Slice0/Obligations.lean ====
section
/-!
DEFINITION. The statements for the provers. Each cites the rule of spec/ it formalises.
-/

open Sys2Proof Sys2Proof.Machine

/-! ### Encoding -/

/-- Decoding an encoded well-formed instruction gives it back, every operand at every value (R71 to R75, R85
to R88). -/
def Obligations.DecodeOfEncodedIsTheInstruction : Prop :=
  ∀ i : Instr, i.wf = true → decode (encode i) = .ok i

/-- R75: the operation is selected by OP alone, and each of the 16 OP values is a row. -/
def Obligations.CommandWordsDecodeByOpAlone : Prop :=
  ∀ (op : BitVec 4) (arg : BitVec 32),
    (op = 0#4 → decodeCmd (op ++ arg) = .nop) ∧
    (op = 1#4 → decodeCmd (op ++ arg) = .poll arg) ∧
    (op = 2#4 → decodeCmd (op ++ arg) = .byte (BitVec.ofNat 8 (arg.toNat % 256))) ∧
    (op = 3#4 → decodeCmd (op ++ arg) = .publish) ∧
    (4 ≤ op.toNat → op.toNat < 8 → decodeCmd (op ++ arg) = .reserved47 (BitVec.ofNat 2 (op.toNat - 4))) ∧
    (8 ≤ op.toNat → decodeCmd (op ++ arg) = .reserved8F (BitVec.ofNat 3 (op.toNat - 8)))

/-- R74: words that differ only in ignored bits are the same command. -/
def Obligations.IgnoredBitsDoNotChangeTheCommand : Prop :=
  ∀ (op : BitVec 4) (arg arg' : BitVec 32),
    op ≠ 1#4 → (op = 2#4 → arg.toNat % 256 = arg'.toNat % 256) →
      decodeCmd (op ++ arg) = decodeCmd (op ++ arg')

/-- R85: the classes of header 1, with the counts of the table, and each class accepted or rejected. -/
def Obligations.HeaderOneClassesPartitionTheBytes : Prop :=
  ∀ b : Byte, (decodeHdr1 b).wf = true ∧ (decodeHdr1 b).streamByte = some b ∧
    (decodeHdr1 b = .hdr1Primary ↔ b = 0x55#8) ∧
    (decodeHdr1 b = .hdr1Uncal ↔ b = 0xAA#8) ∧
    ((∃ pcer, decodeHdr1 b = .hdr1StatusOk pcer) ↔ b = 0xF0#8 ∨ b = 0xF2#8) ∧
    ((∃ status, decodeHdr1 b = .hdr1StatusAbort status) ↔ 0xF0 ≤ b.toNat ∧ b ≠ 0xF0#8 ∧ b ≠ 0xF2#8) ∧
    (decodeHdr1 b = .hdr1Reject b ↔ b ≠ 0x55#8 ∧ b ≠ 0xAA#8 ∧ b.toNat < 0xF0)

/-- Words written out from R72, R76, R85 to R88 decode to the instructions they stand for. -/
def Obligations.WrittenWordsDecode : Prop :=
  decodeCmd 0x0DEADBEEF#36 = .nop ∧ decodeCmd 0x1000003E8#36 = .poll 1000#32 ∧
  decodeCmd 0x2ABCDEF55#36 = .byte 0x55#8 ∧ decodeCmd 0x3FFFFFFFF#36 = .publish ∧
  decodeCmd 0x400000000#36 = .reserved47 0#2 ∧ decodeCmd 0xF12345678#36 = .reserved8F 7#3 ∧
  decode (.frame .byte0 0x55#8) = .ok .hdr1Primary ∧ decode (.frame .byte0 0xAA#8) = .ok .hdr1Uncal ∧
  decode (.frame .byte0 0xF2#8) = .ok (.hdr1StatusOk true) ∧
  decode (.frame .byte0 0xF8#8) = .ok (.hdr1StatusAbort 8#4) ∧
  decode (.frame .byte0 0x5A#8) = .ok (.hdr1Reject 0x5A#8) ∧
  decode (.frame .byte1 0x5A#8) = .ok .hdr2 ∧
  decode (.frame .byte20 0x60#8) = .ok (.adj false true true false 0#4)

/-! ### Steps, reset, and the host's inputs -/

/-- A step takes the oldest input, and runs exactly the instruction its word decodes to (R3, R60, R75); with
no input the block holds its state (R237; the input list is log entry 1). -/
def Obligations.StepRunsTheDecodedCommand : Prop :=
  (∀ (s : State) (i : Instr) (w : CmdWord) (rest : List Input),
    decodeCmd w = i → s.inputs = .cmd w :: rest → step s = exec i { s with inputs := rest }) ∧
  ∀ s : State, s.inputs = [] → step s = .next s

/-- A byte at a position that has rows of its own (0, 1 and 20) is the row's instruction: BYTE and the row
have one effect (R82, R85, R87, R88; log entry 12). -/
def Obligations.StreamByteRunsItsFrameRow : Prop :=
  ∀ (s : State) (b : Byte) (i : Instr), frameRow s.cur.toNat b = some i →
    i.wf = true ∧ i.streamByte = some b ∧ exec (.byte b) s = exec i s

/-- R250: the reset values the spec gives, and what asserting `rst` does, a command in progress included. -/
def Obligations.ResetAssignsTheRegisters : Prop :=
  (State.reset.cur = 0#5 ∧ State.reset.lastT = 0#32 ∧ State.reset.invNow = 0#32 ∧
    State.reset.invFresh = true ∧ State.reset.warn = false ∧
    State.reset.accV = ⟨0#32, 0#32⟩ ∧ State.reset.accI = ⟨0#32, 0#32⟩ ∧ State.reset.accP = ⟨0#32, 0#32⟩ ∧
    State.reset.energy.pulseValid = false ∧ State.reset.energy.total = 0#32 ∧
    State.reset.energy.pending = 0#32) ∧
  ∀ (s : State) (during : Option CmdWord) (rest : List Input), s.inputs = .rst during :: rest →
    ∃ t, step s = .next t ∧ t.inputs = rest ∧ t.cur = 0#5 ∧ t.lastT = 0#32 ∧ t.invNow = 0#32 ∧
      t.invFresh = true ∧ t.warn = false ∧ t.accV = ⟨0#32, 0#32⟩ ∧ t.accI = ⟨0#32, 0#32⟩ ∧
      t.accP = ⟨0#32, 0#32⟩ ∧ t.energy.pulseValid = false ∧ t.energy.total = 0#32 ∧
      t.energy.pending = 0#32

/-- R251: what the first commands after reset answer. That nothing else of reset is observable is
ResetContentsAreNeverObservable. -/
def Obligations.FirstCommandsAfterResetAnswerAsStated : Prop :=
  (∀ b, ∃ t r, exec (.byte b) State.reset = .next t ∧ t.rsp = some r ∧ r.pos = 0#5 ∧
    r.evt = if b = 0x55#8 ∨ b = 0xAA#8 ∨ 0xF0 ≤ b.toNat then .byteAccepted else .rejectHdr1) ∧
  (∀ pcoef cf, pulseDiff State.reset.energy cf = 0#16 ∧
    energyIncrement (pulseDiff State.reset.energy cf) pcoef = 0#32 ∧
    (energyStep pcoef cf State.reset.energy).total = 0#32 ∧
    (energyStep pcoef cf State.reset.energy).pulseLast = cf) ∧
  (∃ t r, exec .publish State.reset = .next t ∧ t.rsp = some r ∧
    r.pubVOk = false ∧ r.pubIOk = false ∧ r.pubPOk = false ∧ r.pubEOk = false) ∧
  (∀ now, ∃ t r, exec (.poll now) State.reset = .next t ∧ t.rsp = some r ∧ t.cur = 0#5 ∧
    (r.evt = .timeout ↔ 500 ≤ now.toNat))

/-- The invariant holds at reset (R20, R22, R35). -/
def Obligations.ResetStateMeetsTheInvariant : Prop := State.reset.Inv

/-- R77: the pseudo-instructions expand to their commands, and FRAME takes exactly 24 operands. -/
def Obligations.PseudoInstructionsExpand : Prop :=
  ∀ (n : Nat) (bs : List Nat), n < 2 ^ 32 → (∀ b ∈ bs, b < 256) →
    (Stmt.invoke n bs).expand = some (.cmd (BitVec.ofNat 36 (2 ^ 32 + n)) ::
      bs.map fun b => .cmd (BitVec.ofNat 36 (2 * 2 ^ 32 + b))) ∧
    (bs ≠ [] → (Stmt.bytes bs).expand = some (bs.map fun b => .cmd (BitVec.ofNat 36 (2 * 2 ^ 32 + b)))) ∧
    (bs.length = 24 → (Stmt.frame bs).expand = (Stmt.bytes bs).expand) ∧
    (bs.length ≠ 24 → (Stmt.frame bs).expand = none) ∧
    Stmt.reset.expand = some [.rst none]

/-- R7: the hardware's sync values meet the constraints on parameters. -/
def Obligations.HardwareParametersMeetTheConstraints : Prop :=
  paramsOk Config.hw = true

/-! ### NOP, POLL, reserved commands, PUBLISH -/

/-- R100: NOP answers EV_NONE and `warn`, and changes no register. -/
def Obligations.NopAnswersEventNone : Prop :=
  ∀ s : State, exec .nop s = .next { s with rsp := some { evt := .none, warn := s.warn } }

/-- R102: POLL, for the hardware and for TIMEOUT_INCLUSIVE = false. -/
def Obligations.PollChecksTheReceiveTimeout : Prop :=
  ∀ (now : Time) (s : State),
    let elapsed := (now.toNat + 2 ^ 32 - s.lastT.toNat) % 2 ^ 32
    let after (fired : Bool) : State :=
      { s with
        cur := if fired then 0#5 else s.cur
        invNow := now
        invFresh := true
        rsp := some { evt := if fired then .timeout else .none, warn := s.warn } }
    exec (.poll now) s = .next (after (decide (500 ≤ elapsed))) ∧
    execWith { Config.hw with timeoutInclusive := false } (.poll now) s =
      .next (after (decide (500 < elapsed)))

/-- D11: the two readings of the timeout differ at `elapsed = TIMEOUT` and nowhere else. -/
def Obligations.TimeoutReadingsDifferOnlyAtTheBoundary : Prop :=
  ∀ now lastT : Time,
    timeoutFired Config.hw now lastT ≠ timeoutFired { Config.hw with timeoutInclusive := false } now lastT ↔
      now = lastT + 500#32

/-- R73: a reserved command changes no register and answers EV_ILLEGAL_CMD with `warn`; the proof model of R238
refuses it (log entry 6). -/
def Obligations.ReservedCommandsAnswerIllegal : Prop :=
  ∀ (i : Instr) (s : State), ((∃ op, i = .reserved47 op) ∨ ∃ op, i = .reserved8F op) →
    exec i s = .next { s with rsp := some { evt := .illegalCmd, warn := s.warn } } ∧
    execWith Config.proofModel i s = .refused .reservedCommand

/-- R187, R188, R190: PUBLISH releases the three means and the lifetime total, each only where there is one,
and clears what it released. -/
def Obligations.PublishDrainsEveryAccumulator : Prop :=
  ∀ s : State,
    let mean (a : Acc) : Numeric := if a.cnt = 0#32 then 0#32 else numDiv a.sum (numOfNat a.cnt.toNat)
    let cleared (a : Acc) : Acc := if a.cnt = 0#32 then a else ⟨0#32, 0#32⟩
    exec .publish s = .next { s with
      accV := cleared s.accV
      accI := cleared s.accI
      accP := cleared s.accP
      energy := { s.energy with pending := 0#32 }
      rsp := some {
        evt := .published
        warn := s.warn
        pubVOk := decide (s.accV.cnt ≠ 0#32)
        pubV := mean s.accV
        pubIOk := decide (s.accI.cnt ≠ 0#32)
        pubI := mean s.accI
        pubPOk := decide (s.accP.cnt ≠ 0#32)
        pubP := mean s.accP
        pubEOk := decide (s.energy.pending ≠ 0#32)
        pubE := if s.energy.pending = 0#32 then 0#32 else s.energy.total } }

/-- R57: POLL is idempotent; PUBLISH is a destructive read and not idempotent, since the first delivers exactly
the quantities with a count above 0 and the second none; NOP has no effect on a register. -/
def Obligations.PollIsIdempotentPublishIsNot : Prop :=
  ∀ s : State,
    (∀ now t, exec (.poll now) s = .next t → exec (.poll now) t = .next t) ∧
    (∀ t, exec .publish s = .next t → ∃ u r, exec .publish t = .next u ∧ u.rsp = some r ∧
      SameQuantities t u ∧
      r.pubVOk = false ∧ r.pubIOk = false ∧ r.pubPOk = false ∧ r.pubEOk = false) ∧
    (∃ t r, exec .publish s = .next t ∧ t.rsp = some r ∧
      (r.pubVOk = true ↔ s.accV.cnt ≠ 0#32) ∧ (r.pubIOk = true ↔ s.accI.cnt ≠ 0#32) ∧
      (r.pubPOk = true ↔ s.accP.cnt ≠ 0#32) ∧ (r.pubEOk = true ↔ s.energy.pending ≠ 0#32) ∧
      (s.accV.cnt ≠ 0#32 ∨ s.accI.cnt ≠ 0#32 ∨ s.accP.cnt ≠ 0#32 ∨ s.energy.pending ≠ 0#32 →
        exec .publish t ≠ .next t)) ∧
    (∀ t, exec .nop s = .next t → { t with rsp := s.rsp } = s)

/-! ### BYTE and the frame-byte rows -/

/-- R105: a byte at position 0 is accepted in exactly 18 of the 256 cases. -/
def Obligations.HeaderOneDecidesAcceptance : Prop :=
  ∀ (b : Byte) (s : State), s.buf.wf = true → s.cur = 0#5 →
    exec (.byte b) s =
      if b = 0x55#8 ∨ b = 0xAA#8 ∨ 0xF0 ≤ b.toNat then
        .next (afterByte b 1#5 s.warn { evt := .byteAccepted } s)
      else .next (afterByte b 0#5 true { evt := .rejectHdr1 } s)

/-- R106: a byte at position 1 is accepted only if it is 0x5A. -/
def Obligations.HeaderTwoDecidesAcceptance : Prop :=
  ∀ (b : Byte) (s : State), s.buf.wf = true → s.cur = 1#5 →
    exec (.byte b) s =
      if b = 0x5A#8 then .next (afterByte b 2#5 s.warn { evt := .byteAccepted, pos := 1#5 } s)
      else .next (afterByte b 0#5 true { evt := .rejectHdr2, pos := 1#5 } s)

/-- R107: every byte at positions 2 to 22 is accepted. -/
def Obligations.BodyBytesAreAlwaysAccepted : Prop :=
  ∀ (b : Byte) (s : State), 2 ≤ s.cur.toNat → s.cur.toNat ≤ 22 →
    exec (.byte b) s =
      .next (afterByte b (s.cur + 1#5) s.warn { evt := .byteAccepted, pos := s.cur } s)

/-- R108: at position 23 the low 8 bits of the sum of bytes 2 to 22 decide; a mismatch is a rejection, a
match completes the frame. -/
def Obligations.ChecksumDecidesTheFrame : Prop :=
  ∀ (b : Byte) (s : State), s.buf.wf = true → s.cur = 23#5 →
    (bodyTotal s.buf % 256 ≠ b.toNat →
      exec (.byte b) s = .next (afterByte b 0#5 true { evt := .rejectChecksum, pos := 23#5 } s)) ∧
    (bodyTotal s.buf % 256 = b.toNat →
      ∃ t r, exec (.byte b) s = .next t ∧ t.rsp = some r ∧ t.cur = 0#5 ∧ t.warn = false ∧
        (r.evt = .frameOk ∨ r.evt = .frameUncalibrated ∨ r.evt = .frameAbortStatus ∨
          r.evt = .frameZeroCycle))

/-- R109: after a rejection the cursor is 0 and stays 0 until the next byte, which is checked as header 1. -/
def Obligations.RejectedByteRestartsAtHeaderOne : Prop :=
  ∀ (b : Byte) (s : State), s.cur.toNat < 24 →
    valid Config.hw (s.buf.write s.cur.toNat b) s.cur.toNat = false →
      (s.cur = 0#5 ∨ s.cur = 1#5 ∨ s.cur = 23#5) ∧
      ∃ t, exec (.byte b) s = .next t ∧ t.cur = 0#5 ∧ t.warn = true ∧
        (∀ j u v, u.cur = 0#5 → j.streamByte = none → exec j u = .next v → v.cur = 0#5) ∧
        (∀ b' u r, exec (.byte b') t = .next u → u.rsp = some r →
          r.pos = 0#5 ∧ u.buf = t.buf.write 0 b' ∧ (r.evt = .byteAccepted ∨ r.evt = .rejectHdr1))

/-- The rows of header 1 at position 0 (R85, R105): five classes, four accepted. -/
def Obligations.HeaderOneRowsAtPositionZero : Prop :=
  ∀ s : State, s.buf.wf = true → s.cur = 0#5 →
    exec .hdr1Primary s = .next (afterByte 0x55#8 1#5 s.warn { evt := .byteAccepted } s) ∧
    exec .hdr1Uncal s = .next (afterByte 0xAA#8 1#5 s.warn { evt := .byteAccepted } s) ∧
    (∀ pcer, exec (.hdr1StatusOk pcer) s =
      .next (afterByte (if pcer then 0xF2#8 else 0xF0#8) 1#5 s.warn { evt := .byteAccepted } s)) ∧
    (∀ status, (Instr.hdr1StatusAbort status).wf = true → exec (.hdr1StatusAbort status) s =
      .next (afterByte (BitVec.ofNat 8 (0xF0 + status.toNat)) 1#5 s.warn { evt := .byteAccepted } s)) ∧
    (∀ h1, (Instr.hdr1Reject h1).wf = true → exec (.hdr1Reject h1) s =
      .next (afterByte h1 0#5 true { evt := .rejectHdr1 } s))

/-- The row of header 2 at position 1 and the row of the adjustment byte at position 20 (R87, R88, R106,
R107). -/
def Obligations.HeaderTwoAndAdjustmentRows : Prop :=
  (∀ s : State, s.buf.wf = true → s.cur = 1#5 →
    exec .hdr2 s = .next (afterByte 0x5A#8 2#5 s.warn { evt := .byteAccepted, pos := 1#5 } s)) ∧
  ∀ (s : State) (ignored7 hv hi hp : Bool) (ignored30 : BitVec 4), s.cur = 20#5 →
    exec (.adj ignored7 hv hi hp ignored30) s =
      .next (afterByte (BitVec.ofNat 8 (128 * ignored7.toNat + 64 * hv.toNat + 32 * hi.toNat +
        16 * hp.toNat + ignored30.toNat)) 21#5 s.warn { evt := .byteAccepted, pos := 20#5 } s)

/-- R110: the transition table of the frame FSM. -/
def Obligations.CursorFollowsTheTransitionTable : Prop :=
  ∀ (i : Instr) (s t : State) (r : Response), s.buf.wf = true → exec i s = .next t → t.rsp = some r →
    (∀ now, i = .poll now → 500 ≤ (now - s.lastT).toNat → t.cur = 0#5 ∧ r.evt = .timeout ∧ t.warn = s.warn) ∧
    (∀ now, i = .poll now → (now - s.lastT).toNat < 500 → t.cur = s.cur ∧ r.evt = .none ∧ t.warn = s.warn) ∧
    (i = .nop → t.cur = s.cur ∧ r.evt = .none ∧ t.warn = s.warn) ∧
    (i = .publish → t.cur = s.cur ∧ r.evt = .published ∧ t.warn = s.warn) ∧
    (((∃ op, i = .reserved47 op) ∨ ∃ op, i = .reserved8F op) →
      t.cur = s.cur ∧ r.evt = .illegalCmd ∧ t.warn = s.warn) ∧
    ∀ b, i.streamByte = some b →
      let hdr1 := b = 0x55#8 ∨ b = 0xAA#8 ∨ 0xF0 ≤ b.toNat
      let match23 := bodyTotal s.buf % 256 = b.toNat
      (s.cur = 0#5 → hdr1 → t.cur = 1#5 ∧ r.evt = .byteAccepted ∧ t.warn = s.warn) ∧
      (s.cur = 0#5 → ¬hdr1 → t.cur = 0#5 ∧ r.evt = .rejectHdr1 ∧ t.warn = true) ∧
      (s.cur = 1#5 → b = 0x5A#8 → t.cur = 2#5 ∧ r.evt = .byteAccepted ∧ t.warn = s.warn) ∧
      (s.cur = 1#5 → b ≠ 0x5A#8 → t.cur = 0#5 ∧ r.evt = .rejectHdr2 ∧ t.warn = true) ∧
      (2 ≤ s.cur.toNat → s.cur.toNat ≤ 22 →
        t.cur = s.cur + 1#5 ∧ r.evt = .byteAccepted ∧ t.warn = s.warn) ∧
      (s.cur = 23#5 → match23 → t.cur = 0#5 ∧ t.warn = false ∧
        (r.evt = .frameOk ∨ r.evt = .frameUncalibrated ∨ r.evt = .frameAbortStatus ∨
          r.evt = .frameZeroCycle)) ∧
      (s.cur = 23#5 → ¬match23 → t.cur = 0#5 ∧ r.evt = .rejectChecksum ∧ t.warn = true)

/-- R111, R112: `last_t` takes `inv_now` at the first byte after a POLL or after reset and changes at nothing
else, and only POLL starts an invocation. -/
def Obligations.InvocationsStampTheirFirstByte : Prop :=
  ∀ (i : Instr) (s t : State), exec i s = .next t →
    t.lastT = (if i.streamByte.isSome ∧ s.invFresh = true then s.invNow else s.lastT) ∧
    (∀ now, i = .poll now → t.invNow = now ∧ t.invFresh = true) ∧
    ((∀ now, i ≠ .poll now) → t.invNow = s.invNow ∧
      t.invFresh = (if i.streamByte.isSome then false else s.invFresh))

/-- Every byte of the buffer is unchanged but the one at the cursor, which only a stream byte writes (R21,
R50): the store's address is `cur`. -/
def Obligations.OnlyTheByteAtTheCursorIsWritten : Prop :=
  ∀ (i : Instr) (s t : State), exec i s = .next t →
    (i.streamByte = none → t.buf = s.buf) ∧
    ∀ b, i.streamByte = some b →
      (∀ a, a ≠ s.cur.toNat → t.buf.read a = s.buf.read a) ∧
      (s.buf.wf = true → t.buf.read s.cur.toNat = b)

/-- Which commands write which registers (R20): each register outside the named ones is unchanged. -/
def Obligations.RegistersChangeOnlyByTheirWriters : Prop :=
  ∀ (i : Instr) (s t : State) (r : Response), exec i s = .next t → t.rsp = some r →
    t.inputs = s.inputs ∧
    (i = .nop ∨ (∃ op, i = .reserved47 op) ∨ (∃ op, i = .reserved8F op) → { t with rsp := s.rsp } = s) ∧
    ((∃ now, i = .poll now) →
      { t with rsp := s.rsp, cur := s.cur, invNow := s.invNow, invFresh := s.invFresh } = s) ∧
    (i = .publish → { t with
      rsp := s.rsp
      accV := s.accV
      accI := s.accI
      accP := s.accP
      energy := { t.energy with pending := s.energy.pending } } = s) ∧
    (i.streamByte.isSome → t.invNow = s.invNow ∧ (r.evt ≠ .frameOk → SameQuantities s t))

/-- R25: `warn` is set by a rejection, cleared by a completed frame, changed by nothing else, and every response
carries it. -/
def Obligations.WarnFollowsRejectionAndCompletion : Prop :=
  ∀ (i : Instr) (s t : State) (r : Response), exec i s = .next t → t.rsp = some r →
    r.warn = t.warn ∧ t.warn = match r.evt with
      | .rejectHdr1 | .rejectHdr2 | .rejectChecksum => true
      | .frameOk | .frameUncalibrated | .frameAbortStatus | .frameZeroCycle => false
      | .none | .byteAccepted | .timeout | .published | .illegalCmd => s.warn

/-- R78, R79: every command returns one response; `warn` is the register, and a field no rule emits has its
default. -/
def Obligations.ResponsesCarryWarnAndDefaults : Prop :=
  ∀ (i : Instr) (s t : State), exec i s = .next t → ∃ r, t.rsp = some r ∧ r.warn = t.warn ∧
    r.pos = (if i.streamByte.isSome then s.cur else 0#5) ∧
    (r.drValid = true ↔ r.evt = .frameOk) ∧
    (r.evt ≠ .frameAbortStatus → r.evt ≠ .frameZeroCycle → r.info = 0#4) ∧
    (r.evt ≠ .frameOk → r.drHv = false ∧ r.drHi = false ∧ r.drHp = false ∧ r.drV = 0#32 ∧ r.drI = 0#32 ∧
      r.drP = 0#32 ∧ r.drP0 = false ∧ r.drPcer = false ∧ r.drEdiff = 0#16 ∧ r.drEinc = 0#32) ∧
    (i ≠ .publish → r.pubVOk = false ∧ r.pubIOk = false ∧ r.pubPOk = false ∧ r.pubEOk = false ∧
      r.pubV = 0#32 ∧ r.pubI = 0#32 ∧ r.pubP = 0#32 ∧ r.pubE = 0#32)

/-- R101: no command can fail to complete. -/
def Obligations.EveryCommandCompletes : Prop :=
  ∀ (i : Instr) (s : State), s.cur.toNat < 24 →
    ∃ t r, exec i s = .next t ∧ t.rsp = some r

/-- R108's corner cases: a change of one byte at positions 2 to 23 fails the checksum; swapping two body bytes
keeps it, and so does adding to one what is taken from another. -/
def Obligations.ChecksumDetectsOneByteAndNotASwap : Prop :=
  ∀ m : Memory, m.wf = true →
    (checksumOk m = true → ∀ k b, 2 ≤ k → k ≤ 23 → b ≠ m.read k → checksumOk (m.write k b) = false) ∧
    (∀ j k, 2 ≤ j → j ≤ 22 → 2 ≤ k → k ≤ 22 →
      checksumOk ((m.write j (m.read k)).write k (m.read j)) = checksumOk m) ∧
    (∀ j k d, 2 ≤ j → j ≤ 22 → 2 ≤ k → k ≤ 22 → j ≠ k →
      checksumOk ((m.write j (m.read j + d)).write k (m.read k - d)) = checksumOk m)

/-! ### decode and commit -/

/-- R52: multi-byte fields are big-endian. -/
def Obligations.FieldsAreBigEndian : Prop :=
  ∀ (m : Memory) (k : Nat),
    (be24 m k).toNat = (m.read k).toNat * 65536 + (m.read (k + 1)).toNat * 256 + (m.read (k + 2)).toNat ∧
    (be16 m k).toNat = (m.read k).toNat * 256 + (m.read (k + 1)).toNat

/-- R141: a completed frame with header 1 = 0xAA is discarded as uncalibrated. -/
def Obligations.UncalibratedFrameIsDiscarded : Prop :=
  ∀ (b : Byte) (s : State), CompletesFrame b s → s.buf.read 0 = 0xAA#8 →
    exec (.byte b) s = .next (afterByte b 0#5 false { evt := .frameUncalibrated, pos := 23#5 } s)

/-- R142: a status-flagged header with an abort bit discards the frame and reports the bits; without one, and
for any other header, decoding continues with PCER as the header says. -/
def Obligations.StatusHeaderAbortsOrSetsPcer : Prop :=
  ∀ (b : Byte) (s : State), CompletesFrame b s →
    let h1 := (s.buf.read 0).toNat
    (0xF0 ≤ h1 → h1 &&& 0x0D ≠ 0 →
      exec (.byte b) s = .next (afterByte b 0#5 false
        { evt := .frameAbortStatus, pos := 23#5, info := BitVec.ofNat 4 (h1 &&& 0x0D) } s)) ∧
    (h1 ≠ 0xAA → (0xF0 ≤ h1 → h1 &&& 0x0D = 0) →
      ∃ t r, exec (.byte b) s = .next t ∧ t.rsp = some r ∧
        (r.evt = .frameOk ∨ r.evt = .frameZeroCycle) ∧
        (r.evt = .frameOk → (r.drPcer = true ↔ 0xF0 ≤ h1 ∧ h1 &&& 2 ≠ 0)))

/-- R146 to R155, R158: the fields of a frame whose header lets decoding continue give the first zero divisor
in the order voltage, power, current, or the converted quantities. -/
def Obligations.DecodeConvertsPresentQuantities : Prop :=
  ∀ m : Memory, (m.read 0 = 0x55#8 ∨ m.read 0 = 0xF0#8 ∨ m.read 0 = 0xF2#8) →
    let adj := m.read 20
    let hv := adj.getLsbD 6
    let hi := adj.getLsbD 5
    let hp := adj.getLsbD 4
    let pcer := decide (m.read 0 = 0xF2#8)
    let vzero := hv = true ∧ (be24 m 5).toNat = 0
    let pzero := hp = true ∧ pcer = false ∧ (be24 m 17).toNat = 0
    let pnonzero := hp = true ∧ pcer = false ∧ (be24 m 14).toNat ≠ 0
    let czero := hi = true ∧ pnonzero ∧ (be24 m 11).toNat = 0
    (vzero → decodeFrame Config.hw m = .zeroCycle .voltage) ∧
    (¬vzero → pzero → decodeFrame Config.hw m = .zeroCycle .power) ∧
    (¬vzero → ¬pzero → czero → decodeFrame Config.hw m = .zeroCycle .current) ∧
    (¬vzero → ¬pzero → ¬czero → ∃ r, decodeFrame Config.hw m = .ok r ∧
      r.hv = hv ∧ r.hi = hi ∧ r.hp = hp ∧ r.pcer = pcer ∧ r.pcoef = be24 m 14 ∧ r.cf = be16 m 21 ∧
      r.v = (if hv then fl (be24 m 2).toNat (be24 m 5).toNat else 0#32) ∧
      r.p = (if hp = true ∧ pcer = false then fl (be24 m 14).toNat (be24 m 17).toNat else 0#32) ∧
      (hi = true → hv = true → hp = false → r.i = 0#32 ∧ r.p0 = true) ∧
      (hi = true → pnonzero → r.i = fl (be24 m 8).toNat (be24 m 11).toNat ∧ r.p0 = false) ∧
      (¬(hi = true ∧ hv = true ∧ hp = false) → ¬(hi = true ∧ pnonzero) → r.i = 0#32 ∧ r.p0 = false))

/-- R159, R160: what a completed frame answers and writes, by the outcome of its decode. -/
def Obligations.DecodeOutcomeDecidesTheFrame : Prop :=
  ∀ (b : Byte) (s : State), CompletesFrame b s →
    let m := s.buf.write 23 b
    let discarded (evt : Event) (info : BitVec 4) : State :=
      afterByte b 0#5 false { evt := evt, pos := 23#5, info := info } s
    (decodeFrame Config.hw m = .uncalibrated →
      exec (.byte b) s = .next (discarded .frameUncalibrated 0#4)) ∧
    (∀ bits, decodeFrame Config.hw m = .abortStatus bits →
      exec (.byte b) s = .next (discarded .frameAbortStatus bits)) ∧
    (decodeFrame Config.hw m = .zeroCycle .voltage →
      exec (.byte b) s = .next (discarded .frameZeroCycle 1#4)) ∧
    (decodeFrame Config.hw m = .zeroCycle .power →
      exec (.byte b) s = .next (discarded .frameZeroCycle 2#4)) ∧
    (decodeFrame Config.hw m = .zeroCycle .current →
      exec (.byte b) s = .next (discarded .frameZeroCycle 3#4)) ∧
    (∀ r, decodeFrame Config.hw m = .ok r →
      let add (x : Numeric) (a : Acc) : Acc := ⟨numAdd a.sum x, a.cnt + 1#32⟩
      exec (.byte b) s = .next { afterByte b 0#5 false {
          evt := .frameOk
          pos := 23#5
          drValid := true
          drHv := r.hv
          drHi := r.hi
          drHp := r.hp
          drV := r.v
          drI := r.i
          drP := r.p
          drP0 := r.p0
          drPcer := r.pcer
          drEdiff := if r.hp then pulseDiff s.energy r.cf else 0#16
          drEinc := if r.hp then energyIncrement (pulseDiff s.energy r.cf) r.pcoef else 0#32 } s with
        accV := if r.hv then add r.v s.accV else s.accV
        accI := if r.hi then add r.i s.accI else s.accI
        accP := if r.hp then add r.p s.accP else if r.p0 then add 0#32 s.accP else s.accP
        energy := if r.hp then energyStep r.pcoef r.cf s.energy else s.energy })

/-- R161: the samples by presence pattern, and whether the energy step runs. -/
def Obligations.PresencePatternDecidesTheSamples : Prop :=
  ∀ (b : Byte) (s t : State) (r : Response), CompletesFrame b s → exec (.byte b) s = .next t →
    t.rsp = some r → r.evt = .frameOk →
      let adj := s.buf.read 20
      let hv := adj.getLsbD 6
      let hi := adj.getLsbD 5
      let hp := adj.getLsbD 4
      t.accV.cnt = s.accV.cnt + (if hv then 1#32 else 0#32) ∧
      t.accI.cnt = s.accI.cnt + (if hi then 1#32 else 0#32) ∧
      t.accP.cnt = s.accP.cnt + (if hp || (hv && hi) then 1#32 else 0#32) ∧
      t.energy.pending = s.energy.pending + (if hp then 1#32 else 0#32) ∧
      (hv = true → t.accV.sum = numAdd s.accV.sum r.drV) ∧
      (hi = true → t.accI.sum = numAdd s.accI.sum r.drI) ∧
      (hp = true → t.accP.sum = numAdd s.accP.sum r.drP) ∧
      (hp = false → hv = true → hi = true → t.accP.sum = numAdd s.accP.sum 0#32 ∧ r.drI = 0#32) ∧
      (hi = true → (r.drP = 0#32 ∨ hp = false) → r.drI = 0#32)

/-- R157: the converted quantities are finite, never negative and never a negative zero. -/
def Obligations.ConvertedQuantitiesAreNotNegative : Prop :=
  ∀ (m : Memory) (r : DecodeRecord), decodeFrame Config.hw m = .ok r →
    ∀ x, x = r.v ∨ x = r.i ∨ x = r.p →
      x.msb = false ∧ x.toNat < infinityBits ∧ 0 ≤ numValue x ∧ numValue x ≤ 2 ^ 24

/-- R151: a quotient of a non-zero field by a non-zero field never rounds to zero. -/
def Obligations.NonzeroQuotientsStayNonzero : Prop :=
  ∀ coef cyc : Raw24, coef ≠ 0#24 → cyc ≠ 0#24 → numOfRatio coef.toNat cyc.toNat ≠ 0#32

/-! ### Energy, numbers, counts -/

/-- R180 to R184: the energy step. -/
def Obligations.EnergyStepFollowsTheRule : Prop :=
  ∀ (pcoef : Raw24) (cf : Raw16) (e : Energy),
    let diff := if e.pulseValid then (cf.toNat + 65536 - e.pulseLast.toNat) % 65536 else 0
    let inc := numDiv (numDiv (numMul (fl diff 1) (fl pcoef.toNat 1)) (fl 1000000 1)) (fl 3600 1)
    (pulseDiff e cf).toNat = diff ∧ energyIncrement (pulseDiff e cf) pcoef = inc ∧
    energyStep pcoef cf e = ⟨true, cf, numAdd e.total inc, e.pending + 1#32⟩

/-- R183's corner cases: no difference or no coefficient gives +0.0, and no increment exceeds the largest
one. -/
def Obligations.EnergyIncrementIsBounded : Prop :=
  ∀ (diff : Raw16) (pcoef : Raw24),
    (diff = 0#16 ∨ pcoef = 0#24 → energyIncrement diff pcoef = 0#32) ∧
    (energyIncrement diff pcoef).toNat ≤ 0x4398B526 ∧
    energyIncrement 0xFFFF#16 0xFFFFFF#24 = 0x4398B526#32

/-- R36: the energy total never decreases, and a large total can absorb an increment. -/
def Obligations.EnergyTotalNeverDecreases : Prop :=
  (∀ (i : Instr) (s t : State), s.Inv → exec i s = .next t →
    numValue s.energy.total ≤ numValue t.energy.total ∧
    (i = .publish → t.energy.total = s.energy.total)) ∧
  (energyStep 5000000#24 150#16 ⟨true, 100#16, 0x4B800000#32, 0#32⟩).total = 0x4B800000#32

/-- R12: rounding takes a nearest binary32 value, the even one at a tie, wherever the largest finite value is
not passed by half a step. -/
def Obligations.RoundingIsNearestTiesToEven : Prop :=
  ∀ n d : Nat, 0 < d → (n : ℚ) / d < (2 ^ 25 - 1) * 2 ^ 103 →
    (fl n d).toNat < infinityBits ∧
    ∀ y : Numeric, y.toNat < infinityBits →
      |numValue (fl n d) - (n : ℚ) / d| ≤ |numValue y - (n : ℚ) / d| ∧
      (|numValue (fl n d) - (n : ℚ) / d| = |numValue y - (n : ℚ) / d| →
        y = fl n d ∨ (fl n d).toNat % 2 = 0)

/-- R12: an operation takes its operands exactly and rounds once; integers below 2^24 convert exactly. -/
def Obligations.ArithmeticRoundsTheExactResultOnce : Prop :=
  (∀ n : Nat, n < 2 ^ 24 → numValue (numOfNat n) = n) ∧
  ∀ x y : Numeric, x.toNat < infinityBits → y.toNat < infinityBits →
    (∃ (n : Nat) (d : Nat), 0 < d ∧ numValue x + numValue y = (n : ℚ) / d ∧ numAdd x y = fl n d) ∧
    (∃ (n : Nat) (d : Nat), 0 < d ∧ numValue x * numValue y = (n : ℚ) / d ∧ numMul x y = fl n d) ∧
    (y ≠ 0#32 → ∃ (n : Nat) (d : Nat), 0 < d ∧ numValue x / numValue y = (n : ℚ) / d ∧ numDiv x y = fl n d)

/-- R186: a count wraps modulo 2^32, and a wrapped count of 0 makes the drain deliver nothing and keep the
sum. -/
def Obligations.CountsWrapAndAWrappedCountDeliversNothing : Prop :=
  ∀ (x : Numeric) (a : Acc), (accAdd x a).cnt.toNat = (a.cnt.toNat + 1) % 2 ^ 32 ∧
    (a.cnt.toNat = 2 ^ 32 - 1 → drainValue (accAdd x a) = none ∧ drainAcc (accAdd x a) = accAdd x a)

/-- R27: nothing but reset clears `pulse_valid`; only a frame with power changes the baseline, PUBLISH does not. -/
def Obligations.PulseBaselineIsOnlyLostByReset : Prop :=
  ∀ (i : Instr) (s t : State) (r : Response), exec i s = .next t → t.rsp = some r →
    (s.energy.pulseValid = true → t.energy.pulseValid = true) ∧
    (¬(r.evt = .frameOk ∧ r.drHp = true) →
      t.energy.pulseValid = s.energy.pulseValid ∧ t.energy.pulseLast = s.energy.pulseLast) ∧
    (r.evt = .frameOk → r.drHp = true → t.energy.pulseValid = true)

/-- R190: energy is never delivered without power, unless the power count wrapped. The relation of the two
counts that it rests on is kept by every step of the hardware that does not wrap the power count, and by every
step of the proof model. -/
def Obligations.EnergyIsNeverDeliveredWithoutPower : Prop :=
  (∀ s t : State, s.energy.pending.toNat ≤ s.accP.cnt.toNat → s.accP.cnt.toNat < 2 ^ 32 - 1 →
    step s = .next t → t.energy.pending.toNat ≤ t.accP.cnt.toNat) ∧
  (∀ s t : State, s.energy.pending.toNat ≤ s.accP.cnt.toNat → stepWith Config.proofModel s = .next t →
    t.energy.pending.toNat ≤ t.accP.cnt.toNat) ∧
  (∀ (s t : State) (r : Response), s.energy.pending.toNat ≤ s.accP.cnt.toNat →
    exec .publish s = .next t → t.rsp = some r → r.pubEOk = true → r.pubPOk = true)

/-! ### Headline results -/

/-- The hardware never faults (R238, R101), and every step keeps the invariant (R22, R35, R12). -/
def Obligations.HardwareNeverFaultsAndKeepsTheInvariant : Prop :=
  ∀ s : State, s.Inv → ∃ t, step s = .next t ∧ t.Inv

/-- The reset contents of `buf` and `pulse_last` are never observable (R251, R27, R35): states that differ
only there answer alike and go on differing only there. -/
def Obligations.ResetContentsAreNeverObservable : Prop :=
  ∀ s t : State, s.buf.wf = true → t.buf.wf = true → s.cur.toNat < 24 → s.Alike t →
    ∃ s' t', step s = .next s' ∧ step t = .next t' ∧ s'.Alike t'

/-- R238: the proof model stops in the three cases and goes on as the hardware everywhere else (log entries 5, 6,
7). Outside the three cases it is the hardware in every state whose buffer is in canonical form, which the
invariant keeps. -/
def Obligations.ProofModelIsTheHardwareButForThreeStops : Prop :=
  (∀ s t : State, stepWith Config.proofModel s = .next t → step s = .next t) ∧
  (∀ (i : Instr) (s : State), s.buf.wf = true → ¬ProofModelStops i s →
    execWith Config.proofModel i s = exec i s) ∧
  (∀ s : State, s.buf.wf = true →
    (∀ w rest, s.inputs = .cmd w :: rest → ¬ProofModelStops (decodeCmd w) s) →
      stepWith Config.proofModel s = step s) ∧
  (∀ (s : State) (op : BitVec 2), execWith Config.proofModel (.reserved47 op) s = .refused .reservedCommand) ∧
  (∀ (s : State) (op : BitVec 3), execWith Config.proofModel (.reserved8F op) s = .refused .reservedCommand) ∧
  (∀ (i : Instr) (b : Byte) (s : State), i.streamByte = some b → CompletesFrame b s →
    (∀ w, decodeFrame Config.hw (s.buf.write 23 b) = .zeroCycle w →
      execWith Config.proofModel i s = .fault (.zeroCycle w)) ∧
    (∀ r, decodeFrame Config.hw (s.buf.write 23 b) = .ok r →
      (execWith Config.proofModel i s = .refused .countOverflow ↔ CountWouldWrap r s)))

/-- A frame delivered from position 0 byte by byte is the frame that is decoded (R35, R65, R103): 24 steps
leave its bytes in the buffer and answer by the outcome of its decode. -/
def Obligations.DeliveredFrameIsDecoded : Prop :=
  ∀ (bs : List Byte) (s : State) (rest : List Input),
    s.buf.wf = true → s.cur = 0#5 → bs.length = 24 → hdr1Ok Config.hw (bs.getD 0 0#8) = true →
    bs.getD 1 0#8 = 0x5A#8 → bodyTotal (bufferOf bs) % 256 = (bs.getD 23 0#8).toNat →
    s.inputs = deliverInputs bs ++ rest →
      ∃ (t : State) (r : Response), Host.Core.run Sys2Proof.core 24 s = .next t ∧ t.rsp = some r ∧
        t.inputs = rest ∧ t.cur = 0#5 ∧ t.warn = false ∧ r.pos = 23#5 ∧
        (∀ k, k < 24 → t.buf.read k = bs.getD k 0#8) ∧
        t.lastT = (if s.invFresh then s.invNow else s.lastT) ∧
        match decodeFrame Config.hw (bufferOf bs) with
        | .uncalibrated => r.evt = .frameUncalibrated ∧ SameQuantities s t
        | .abortStatus bits => r.evt = .frameAbortStatus ∧ r.info = bits ∧ SameQuantities s t
        | .zeroCycle w => r.evt = .frameZeroCycle ∧ r.info = zeroCycleInfo w ∧ SameQuantities s t
        | .ok rec => r = { commitResponse rec s.energy with warn := false } ∧
            SameQuantities (commitRegs rec s) t
end

