-- ==== Sys2Proof/Laws/Decode.lean ====
section
/-!
SUPPORT. The fields of a command word, and the bytes of the frame-byte rows.
-/

namespace Sys2Proof

/-- A command word as a number (R71). -/
theorem cmdWord_toNat (op : BitVec 4) (arg : BitVec 32) :
    (cmdWord op arg).toNat = op.toNat * 2 ^ 32 + arg.toNat := by
  unfold cmdWord
  rw [BitVec.toNat_append, ← Nat.shiftLeft_add_eq_or_of_lt arg.isLt, Nat.shiftLeft_eq]

/-- The operation of a command word (R71). -/
theorem cmdWord_op (op : BitVec 4) (arg : BitVec 32) : (cmdWord op arg).extractLsb' 32 4 = op := by
  apply BitVec.eq_of_toNat_eq
  rw [BitVec.extractLsb'_toNat, cmdWord_toNat, Nat.shiftRight_eq_div_pow]
  omega

/-- The operand of a command word (R71). -/
theorem cmdWord_arg (op : BitVec 4) (arg : BitVec 32) : (cmdWord op arg).extractLsb' 0 32 = arg := by
  apply BitVec.eq_of_toNat_eq
  rw [BitVec.extractLsb'_toNat, cmdWord_toNat, Nat.shiftRight_eq_div_pow]
  omega

/-- The byte operand of a command word (R71). -/
theorem cmdWord_arg8 (op : BitVec 4) (arg : BitVec 32) :
    (cmdWord op arg).extractLsb' 0 8 = BitVec.ofNat 8 (arg.toNat % 256) := by
  apply BitVec.eq_of_toNat_eq
  rw [BitVec.extractLsb'_toNat, cmdWord_toNat, Nat.shiftRight_eq_div_pow, BitVec.toNat_ofNat]
  omega

/-- The low bits of the operation, which name a reserved row (R73). -/
theorem cmdWord_opLow (op : BitVec 4) (arg : BitVec 32) (k : Nat) :
    (cmdWord op arg).extractLsb' 32 k = BitVec.ofNat k op.toNat := by
  apply BitVec.eq_of_toNat_eq
  rw [BitVec.extractLsb'_toNat, cmdWord_toNat, Nat.shiftRight_eq_div_pow, BitVec.toNat_ofNat]
  congr 1
  omega

/-- Decoding a command word, field by field (R72, R75). -/
theorem decodeCmd_cmdWord (op : BitVec 4) (arg : BitVec 32) :
    decodeCmd (cmdWord op arg) =
      if op.toNat = 0 then .nop
      else if op.toNat = 1 then .poll arg
      else if op.toNat = 2 then .byte (BitVec.ofNat 8 (arg.toNat % 256))
      else if op.toNat = 3 then .publish
      else if op.toNat < 8 then .reserved47 (BitVec.ofNat 2 op.toNat)
      else .reserved8F (BitVec.ofNat 3 op.toNat) := by
  unfold decodeCmd
  rw [cmdWord_op, cmdWord_arg, cmdWord_arg8, cmdWord_opLow _ _ 2, cmdWord_opLow _ _ 3]

/-- The command word that delivers a byte decodes to BYTE. -/
theorem decodeCmd_byte (b : Byte) : decodeCmd (cmdWord 0x2#4 (b.setWidth 32)) = .byte b := by
  have hb : BitVec.ofNat 8 ((b.setWidth 32).toNat % 256) = b := by
    apply BitVec.eq_of_toNat_eq
    rw [BitVec.toNat_ofNat, BitVec.toNat_setWidth]
    omega
  rw [decodeCmd_cmdWord, hb]
  rfl

/-- Every byte's header-1 class is well formed and stands for that byte (R85). -/
theorem decodeHdr1_carries : ∀ b : Byte, (decodeHdr1 b).wf = true ∧ (decodeHdr1 b).streamByte = some b := by
  decide

/-- Every byte is an adjustment byte and stands for itself (R88). -/
theorem decodeAdj_carries : ∀ b : Byte, (decodeAdj b).wf = true ∧ (decodeAdj b).streamByte = some b := by
  decide

/-- A frame byte that has a row is carried by it. -/
theorem decodeFrameByte_carries {pos : FramePos} {b : Byte} {i : Instr}
    (h : decodeFrameByte pos b = .ok i) : i.wf = true ∧ i.streamByte = some b := by
  cases pos with
  | byte0 =>
    simp only [decodeFrameByte, Except.ok.injEq] at h
    exact h ▸ decodeHdr1_carries b
  | byte1 =>
    simp only [decodeFrameByte] at h
    split_ifs at h with hb
    simp only [Except.ok.injEq] at h
    subst h hb
    exact ⟨rfl, rfl⟩
  | byte20 =>
    simp only [decodeFrameByte, Except.ok.injEq] at h
    exact h ▸ decodeAdj_carries b

end Sys2Proof
end

