-- ==== Sys2Proof/Laws/Memory.lean ====
section
/-!
SUPPORT. The frame buffer's laws: a write keeps the canonical form, a read after a write, and equal contents
are equal data.
-/

namespace Sys2Proof.Machine

@[simp] theorem Memory.read_nil (a : Nat) : Memory.read [] a = 0#8 := rfl

theorem Memory.read_cons (k : Nat) (v : Byte) (m : Memory) (a : Nat) :
    Memory.read ((k, v) :: m) a = if k = a then v else Memory.read m a := rfl

theorem Memory.wfFrom_cons (lo k : Nat) (v : Byte) (m : Memory) :
    Memory.wfFrom lo ((k, v) :: m) = true ↔
      lo ≤ k ∧ k < 24 ∧ v ≠ 0#8 ∧ Memory.wfFrom (k + 1) m = true := by
  simp [Memory.wfFrom, and_assoc]

/-- A lower bound on the listed addresses may be weakened. -/
theorem Memory.wfFrom_weaken {lo lo' : Nat} {m : Memory} (h : Memory.wfFrom lo m = true) (hle : lo' ≤ lo) :
    Memory.wfFrom lo' m = true := by
  cases m with
  | nil => rfl
  | cons kv m =>
    obtain ⟨k, v⟩ := kv
    rw [Memory.wfFrom_cons] at h ⊢
    exact ⟨by omega, h.2⟩

/-- An address below every listed one is unlisted. -/
theorem Memory.read_below {m : Memory} : ∀ {lo a : Nat}, Memory.wfFrom lo m = true → a < lo →
    Memory.read m a = 0#8 := by
  induction m with
  | nil => intros; rfl
  | cons kv m ih =>
    intro lo a h ha
    obtain ⟨k, v⟩ := kv
    rw [Memory.wfFrom_cons] at h
    rw [Memory.read_cons, if_neg (by omega)]
    exact ih h.2.2.2 (by omega)

/-- An address that does not exist is unlisted. -/
theorem Memory.read_above {m : Memory} : ∀ {lo a : Nat}, Memory.wfFrom lo m = true → 24 ≤ a →
    Memory.read m a = 0#8 := by
  induction m with
  | nil => intros; rfl
  | cons kv m ih =>
    intro lo a h ha
    obtain ⟨k, v⟩ := kv
    rw [Memory.wfFrom_cons] at h
    rw [Memory.read_cons, if_neg (by omega)]
    exact ih h.2.2.2 ha

/-- A write to an address that exists keeps the canonical form. -/
theorem Memory.write_wfFrom {m : Memory} : ∀ {lo a : Nat} (b : Byte), Memory.wfFrom lo m = true →
    lo ≤ a → a < 24 → Memory.wfFrom lo (Memory.write m a b) = true := by
  induction m with
  | nil =>
    intro lo a b _ hlo ha
    by_cases hb : b = 0#8
    · simp [Memory.write, Memory.wfFrom, hb]
    · simp [Memory.write, Memory.wfFrom, hb, hlo, ha]
  | cons kv m ih =>
    intro lo a b h hlo ha
    obtain ⟨k, v⟩ := kv
    have h' := h
    rw [Memory.wfFrom_cons] at h'
    unfold Memory.write
    split_ifs with h1 h2 h2 h3
    · exact h
    · rw [Memory.wfFrom_cons]
      exact ⟨hlo, ha, h2, (Memory.wfFrom_cons ..).2 ⟨by omega, h'.2⟩⟩
    · exact Memory.wfFrom_weaken h'.2.2.2 (by omega)
    · rw [Memory.wfFrom_cons]
      exact ⟨hlo, ha, h3, h2 ▸ h'.2.2.2⟩
    · rw [Memory.wfFrom_cons]
      exact ⟨h'.1, h'.2.1, h'.2.2.1, ih b h'.2.2.2 (by omega) ha⟩

theorem Memory.write_wf {m : Memory} {a : Nat} (b : Byte) (h : m.wf = true) (ha : a < 24) :
    (m.write a b).wf = true :=
  Memory.write_wfFrom b h (Nat.zero_le a) ha

/-- A write leaves every other byte alone. -/
theorem Memory.read_write_other {m : Memory} {a a' : Nat} (b : Byte) (hne : a' ≠ a) :
    (m.write a b).read a' = m.read a' := by
  induction m with
  | nil =>
    by_cases hb : b = 0#8 <;> simp [Memory.write, Memory.read, hb, Ne.symm hne]
  | cons kv m ih =>
    obtain ⟨k, v⟩ := kv
    unfold Memory.write
    split_ifs with h1 h2 h2 h3
    · rfl
    · rw [Memory.read_cons, if_neg (Ne.symm hne)]
    · rw [Memory.read_cons, if_neg (by omega)]
    · rw [Memory.read_cons, Memory.read_cons, if_neg (Ne.symm hne), if_neg (by omega)]
    · rw [Memory.read_cons, Memory.read_cons, ih]

theorem Memory.read_write_same_from {m : Memory} : ∀ {lo a : Nat} (b : Byte),
    Memory.wfFrom lo m = true → (m.write a b).read a = b := by
  induction m with
  | nil =>
    intro lo a b _
    by_cases hb : b = 0#8 <;> simp [Memory.write, Memory.read, hb]
  | cons kv m ih =>
    intro lo a b h
    obtain ⟨k, v⟩ := kv
    have h' := (Memory.wfFrom_cons ..).1 h
    unfold Memory.write
    split_ifs with h1 h2 h2 h3
    · rw [h2]
      exact Memory.read_below (lo := k) ((Memory.wfFrom_cons ..).2 ⟨le_refl k, h'.2⟩) h1
    · rw [Memory.read_cons, if_pos rfl]
    · rw [h3]
      exact Memory.read_below h'.2.2.2 (by omega)
    · rw [Memory.read_cons, if_pos rfl]
    · rw [Memory.read_cons, if_neg (by omega)]
      exact ih b h'.2.2.2

/-- A read after a write to the same address gives the value written. -/
theorem Memory.read_write_same {m : Memory} {a : Nat} (b : Byte) (h : m.wf = true) :
    (m.write a b).read a = b :=
  Memory.read_write_same_from b h

/-- What a read after a write gives. -/
theorem Memory.read_write {m : Memory} {a a' : Nat} (b : Byte) (h : m.wf = true) :
    (m.write a b).read a' = if a' = a then b else m.read a' := by
  split_ifs with heq
  · rw [heq, Memory.read_write_same b h]
  · exact Memory.read_write_other b heq

theorem Memory.ext_from : ∀ {m m' : Memory} {lo : Nat}, Memory.wfFrom lo m = true →
    Memory.wfFrom lo m' = true → (∀ a, m.read a = m'.read a) → m = m' := by
  intro m
  induction m with
  | nil =>
    intro m' lo _ h' heq
    cases m' with
    | nil => rfl
    | cons kv m' =>
      obtain ⟨k, v⟩ := kv
      have h2 := (Memory.wfFrom_cons ..).1 h'
      have hk := heq k
      rw [Memory.read_cons, if_pos rfl] at hk
      exact absurd hk.symm h2.2.2.1
  | cons kv m ih =>
    intro m' lo h h' heq
    obtain ⟨k, v⟩ := kv
    have h1 := (Memory.wfFrom_cons ..).1 h
    cases m' with
    | nil =>
      have hk := heq k
      rw [Memory.read_cons, if_pos rfl] at hk
      exact absurd hk h1.2.2.1
    | cons kv' m' =>
      obtain ⟨k', v'⟩ := kv'
      have h2 := (Memory.wfFrom_cons ..).1 h'
      have hkk : k = k' := by
        rcases Nat.lt_trichotomy k k' with hlt | heq' | hgt
        · have hk := heq k
          rw [Memory.read_cons, if_pos rfl, Memory.read_cons, if_neg (by omega),
            Memory.read_below h2.2.2.2 (by omega)] at hk
          exact absurd hk h1.2.2.1
        · exact heq'
        · have hk := heq k'
          rw [Memory.read_cons, if_neg (by omega), Memory.read_cons, if_pos rfl,
            Memory.read_below h1.2.2.2 (by omega)] at hk
          exact absurd hk.symm h2.2.2.1
      subst hkk
      have hv : v = v' := by
        have hk := heq k
        simpa [Memory.read_cons] using hk
      subst hv
      have hm : m = m' := by
        refine ih h1.2.2.2 h2.2.2.2 fun a => ?_
        by_cases hka : k = a
        · rw [← hka, Memory.read_below h1.2.2.2 (Nat.lt_succ_self k),
            Memory.read_below h2.2.2.2 (Nat.lt_succ_self k)]
        · have ha := heq a
          rwa [Memory.read_cons, Memory.read_cons, if_neg hka, if_neg hka] at ha
      rw [hm]

/-- Two buffers in canonical form with the same contents are the same data. -/
theorem Memory.ext {m m' : Memory} (h : m.wf = true) (h' : m'.wf = true)
    (heq : ∀ a, m.read a = m'.read a) : m = m' :=
  Memory.ext_from h h' heq

end Sys2Proof.Machine
end

