-- ==== Sys2Proof/Laws/State.lean ====
section
/-!
SUPPORT. One lemma per field per update of State, true by computation, so that no later proof unfolds a record
update.
-/

namespace Sys2Proof.Machine

/-- The stamp as one update. -/
theorem stampInvocation_eq (s : State) :
    stampInvocation s =
      { s with lastT := if s.invFresh then s.invNow else s.lastT, invFresh := false } := by
  obtain ⟨_, _, _, _, fresh, _, _, _, _, _, _, _⟩ := s
  cases fresh <;> rfl


@[simp] theorem respond_buf (r : Response) (s : State) :
    (respond r s).buf = s.buf := rfl
@[simp] theorem respond_cur (r : Response) (s : State) :
    (respond r s).cur = s.cur := rfl
@[simp] theorem respond_lastT (r : Response) (s : State) :
    (respond r s).lastT = s.lastT := rfl
@[simp] theorem respond_invNow (r : Response) (s : State) :
    (respond r s).invNow = s.invNow := rfl
@[simp] theorem respond_invFresh (r : Response) (s : State) :
    (respond r s).invFresh = s.invFresh := rfl
@[simp] theorem respond_warn (r : Response) (s : State) :
    (respond r s).warn = s.warn := rfl
@[simp] theorem respond_accV (r : Response) (s : State) :
    (respond r s).accV = s.accV := rfl
@[simp] theorem respond_accI (r : Response) (s : State) :
    (respond r s).accI = s.accI := rfl
@[simp] theorem respond_accP (r : Response) (s : State) :
    (respond r s).accP = s.accP := rfl
@[simp] theorem respond_energy (r : Response) (s : State) :
    (respond r s).energy = s.energy := rfl
@[simp] theorem respond_inputs (r : Response) (s : State) :
    (respond r s).inputs = s.inputs := rfl
@[simp] theorem respond_rsp (r : Response) (s : State) :
    (respond r s).rsp = some { r with warn := s.warn } := rfl

@[simp] theorem endFrame_buf (w : Bool) (s : State) :
    (endFrame w s).buf = s.buf := rfl
@[simp] theorem endFrame_cur (w : Bool) (s : State) :
    (endFrame w s).cur = 0#5 := rfl
@[simp] theorem endFrame_lastT (w : Bool) (s : State) :
    (endFrame w s).lastT = s.lastT := rfl
@[simp] theorem endFrame_invNow (w : Bool) (s : State) :
    (endFrame w s).invNow = s.invNow := rfl
@[simp] theorem endFrame_invFresh (w : Bool) (s : State) :
    (endFrame w s).invFresh = s.invFresh := rfl
@[simp] theorem endFrame_warn (w : Bool) (s : State) :
    (endFrame w s).warn = w := rfl
@[simp] theorem endFrame_accV (w : Bool) (s : State) :
    (endFrame w s).accV = s.accV := rfl
@[simp] theorem endFrame_accI (w : Bool) (s : State) :
    (endFrame w s).accI = s.accI := rfl
@[simp] theorem endFrame_accP (w : Bool) (s : State) :
    (endFrame w s).accP = s.accP := rfl
@[simp] theorem endFrame_energy (w : Bool) (s : State) :
    (endFrame w s).energy = s.energy := rfl
@[simp] theorem endFrame_inputs (w : Bool) (s : State) :
    (endFrame w s).inputs = s.inputs := rfl
@[simp] theorem endFrame_rsp (w : Bool) (s : State) :
    (endFrame w s).rsp = s.rsp := rfl

@[simp] theorem stampInvocation_buf (s : State) :
    (stampInvocation s).buf = s.buf := by rw [stampInvocation_eq]
@[simp] theorem stampInvocation_cur (s : State) :
    (stampInvocation s).cur = s.cur := by rw [stampInvocation_eq]
@[simp] theorem stampInvocation_lastT (s : State) :
    (stampInvocation s).lastT = if s.invFresh then s.invNow else s.lastT := by rw [stampInvocation_eq]
@[simp] theorem stampInvocation_invNow (s : State) :
    (stampInvocation s).invNow = s.invNow := by rw [stampInvocation_eq]
@[simp] theorem stampInvocation_invFresh (s : State) :
    (stampInvocation s).invFresh = false := by rw [stampInvocation_eq]
@[simp] theorem stampInvocation_warn (s : State) :
    (stampInvocation s).warn = s.warn := by rw [stampInvocation_eq]
@[simp] theorem stampInvocation_accV (s : State) :
    (stampInvocation s).accV = s.accV := by rw [stampInvocation_eq]
@[simp] theorem stampInvocation_accI (s : State) :
    (stampInvocation s).accI = s.accI := by rw [stampInvocation_eq]
@[simp] theorem stampInvocation_accP (s : State) :
    (stampInvocation s).accP = s.accP := by rw [stampInvocation_eq]
@[simp] theorem stampInvocation_energy (s : State) :
    (stampInvocation s).energy = s.energy := by rw [stampInvocation_eq]
@[simp] theorem stampInvocation_inputs (s : State) :
    (stampInvocation s).inputs = s.inputs := by rw [stampInvocation_eq]
@[simp] theorem stampInvocation_rsp (s : State) :
    (stampInvocation s).rsp = s.rsp := by rw [stampInvocation_eq]

@[simp] theorem commitRegs_buf (r : DecodeRecord) (s : State) :
    (commitRegs r s).buf = s.buf := rfl
@[simp] theorem commitRegs_cur (r : DecodeRecord) (s : State) :
    (commitRegs r s).cur = s.cur := rfl
@[simp] theorem commitRegs_lastT (r : DecodeRecord) (s : State) :
    (commitRegs r s).lastT = s.lastT := rfl
@[simp] theorem commitRegs_invNow (r : DecodeRecord) (s : State) :
    (commitRegs r s).invNow = s.invNow := rfl
@[simp] theorem commitRegs_invFresh (r : DecodeRecord) (s : State) :
    (commitRegs r s).invFresh = s.invFresh := rfl
@[simp] theorem commitRegs_warn (r : DecodeRecord) (s : State) :
    (commitRegs r s).warn = s.warn := rfl
@[simp] theorem commitRegs_accV (r : DecodeRecord) (s : State) :
    (commitRegs r s).accV = if r.hv then accAdd r.v s.accV else s.accV := rfl
@[simp] theorem commitRegs_accI (r : DecodeRecord) (s : State) :
    (commitRegs r s).accI = if r.hi then accAdd r.i s.accI else s.accI := rfl
@[simp] theorem commitRegs_accP (r : DecodeRecord) (s : State) :
    (commitRegs r s).accP = if r.p0 then accAdd plusZero (if r.hp then accAdd r.p s.accP else s.accP)
        else if r.hp then accAdd r.p s.accP else s.accP := rfl
@[simp] theorem commitRegs_energy (r : DecodeRecord) (s : State) :
    (commitRegs r s).energy = if r.hp then energyStep r.pcoef r.cf s.energy else s.energy := rfl
@[simp] theorem commitRegs_inputs (r : DecodeRecord) (s : State) :
    (commitRegs r s).inputs = s.inputs := rfl
@[simp] theorem commitRegs_rsp (r : DecodeRecord) (s : State) :
    (commitRegs r s).rsp = s.rsp := rfl

@[simp] theorem publishRegs_buf (s : State) :
    (publishRegs s).buf = s.buf := rfl
@[simp] theorem publishRegs_cur (s : State) :
    (publishRegs s).cur = s.cur := rfl
@[simp] theorem publishRegs_lastT (s : State) :
    (publishRegs s).lastT = s.lastT := rfl
@[simp] theorem publishRegs_invNow (s : State) :
    (publishRegs s).invNow = s.invNow := rfl
@[simp] theorem publishRegs_invFresh (s : State) :
    (publishRegs s).invFresh = s.invFresh := rfl
@[simp] theorem publishRegs_warn (s : State) :
    (publishRegs s).warn = s.warn := rfl
@[simp] theorem publishRegs_accV (s : State) :
    (publishRegs s).accV = drainAcc s.accV := rfl
@[simp] theorem publishRegs_accI (s : State) :
    (publishRegs s).accI = drainAcc s.accI := rfl
@[simp] theorem publishRegs_accP (s : State) :
    (publishRegs s).accP = drainAcc s.accP := rfl
@[simp] theorem publishRegs_energy (s : State) :
    (publishRegs s).energy = drainEnergy s.energy := rfl
@[simp] theorem publishRegs_inputs (s : State) :
    (publishRegs s).inputs = s.inputs := rfl
@[simp] theorem publishRegs_rsp (s : State) :
    (publishRegs s).rsp = s.rsp := rfl

@[simp] theorem State.withFetchWord_buf (s : State) (nbits w : Nat) :
    (s.withFetchWord nbits w).buf = s.buf := rfl
@[simp] theorem State.withFetchWord_cur (s : State) (nbits w : Nat) :
    (s.withFetchWord nbits w).cur = s.cur := rfl
@[simp] theorem State.withFetchWord_lastT (s : State) (nbits w : Nat) :
    (s.withFetchWord nbits w).lastT = s.lastT := rfl
@[simp] theorem State.withFetchWord_invNow (s : State) (nbits w : Nat) :
    (s.withFetchWord nbits w).invNow = s.invNow := rfl
@[simp] theorem State.withFetchWord_invFresh (s : State) (nbits w : Nat) :
    (s.withFetchWord nbits w).invFresh = s.invFresh := rfl
@[simp] theorem State.withFetchWord_warn (s : State) (nbits w : Nat) :
    (s.withFetchWord nbits w).warn = s.warn := rfl
@[simp] theorem State.withFetchWord_accV (s : State) (nbits w : Nat) :
    (s.withFetchWord nbits w).accV = s.accV := rfl
@[simp] theorem State.withFetchWord_accI (s : State) (nbits w : Nat) :
    (s.withFetchWord nbits w).accI = s.accI := rfl
@[simp] theorem State.withFetchWord_accP (s : State) (nbits w : Nat) :
    (s.withFetchWord nbits w).accP = s.accP := rfl
@[simp] theorem State.withFetchWord_energy (s : State) (nbits w : Nat) :
    (s.withFetchWord nbits w).energy = s.energy := rfl
@[simp] theorem State.withFetchWord_inputs (s : State) (nbits w : Nat) :
    (s.withFetchWord nbits w).inputs = .cmd (presentedWord nbits w) :: s.inputs := rfl
@[simp] theorem State.withFetchWord_rsp (s : State) (nbits w : Nat) :
    (s.withFetchWord nbits w).rsp = s.rsp := rfl

@[simp] theorem applyReset_buf (s : State) : (applyReset s).buf = State.reset.buf := rfl
@[simp] theorem applyReset_cur (s : State) : (applyReset s).cur = State.reset.cur := rfl
@[simp] theorem applyReset_lastT (s : State) : (applyReset s).lastT = State.reset.lastT := rfl
@[simp] theorem applyReset_invNow (s : State) : (applyReset s).invNow = State.reset.invNow := rfl
@[simp] theorem applyReset_invFresh (s : State) : (applyReset s).invFresh = State.reset.invFresh := rfl
@[simp] theorem applyReset_warn (s : State) : (applyReset s).warn = State.reset.warn := rfl
@[simp] theorem applyReset_accV (s : State) : (applyReset s).accV = State.reset.accV := rfl
@[simp] theorem applyReset_accI (s : State) : (applyReset s).accI = State.reset.accI := rfl
@[simp] theorem applyReset_accP (s : State) : (applyReset s).accP = State.reset.accP := rfl
@[simp] theorem applyReset_energy (s : State) : (applyReset s).energy = State.reset.energy := rfl
@[simp] theorem applyReset_inputs (s : State) : (applyReset s).inputs = s.inputs := rfl
@[simp] theorem applyReset_rsp (s : State) : (applyReset s).rsp = State.reset.rsp := rfl

@[simp] theorem accAdd_sum (x : Numeric) (a : Acc) : (accAdd x a).sum = numAdd a.sum x := rfl
@[simp] theorem accAdd_cnt (x : Numeric) (a : Acc) : (accAdd x a).cnt = a.cnt + 1#32 := rfl

@[simp] theorem energyStep_pulseValid (p : Raw24) (cf : Raw16) (e : Energy) :
    (energyStep p cf e).pulseValid = true := rfl
@[simp] theorem energyStep_pulseLast (p : Raw24) (cf : Raw16) (e : Energy) :
    (energyStep p cf e).pulseLast = cf := rfl
@[simp] theorem energyStep_total (p : Raw24) (cf : Raw16) (e : Energy) :
    (energyStep p cf e).total = numAdd e.total (energyIncrement (pulseDiff e cf) p) := rfl
@[simp] theorem energyStep_pending (p : Raw24) (cf : Raw16) (e : Energy) :
    (energyStep p cf e).pending = e.pending + 1#32 := rfl

@[simp] theorem drainEnergy_pulseValid (e : Energy) : (drainEnergy e).pulseValid = e.pulseValid := rfl
@[simp] theorem drainEnergy_pulseLast (e : Energy) : (drainEnergy e).pulseLast = e.pulseLast := rfl
@[simp] theorem drainEnergy_total (e : Energy) : (drainEnergy e).total = e.total := rfl
@[simp] theorem drainEnergy_pending (e : Energy) : (drainEnergy e).pending = 0#32 := rfl

@[simp] theorem Config.hw_timeoutInclusive : Config.hw.timeoutInclusive = true := rfl
@[simp] theorem Config.hw_sync1Primary : Config.hw.sync1Primary = 0x55#8 := rfl
@[simp] theorem Config.hw_sync1Legacy : Config.hw.sync1Legacy = 0xAA#8 := rfl
@[simp] theorem Config.hw_sync2 : Config.hw.sync2 = 0x5A#8 := rfl
@[simp] theorem Config.hw_uncalSentinel : Config.hw.uncalSentinel = 0xAA#8 := rfl
@[simp] theorem Config.hw_zeroCycle : Config.hw.zeroCycle = .discardFrame := rfl
@[simp] theorem Config.hw_reserved : Config.hw.reserved = .respond := rfl
@[simp] theorem Config.hw_countOverflow : Config.hw.countOverflow = .wrap := rfl

end Sys2Proof.Machine
end

