-- ==== Sys2Proof/Laws/Machine.lean ====
section
/-!
SUPPORT. What the shared operations can do, said once: the lemmas later proofs cite instead of unfolding the
machine.
-/

namespace Sys2Proof.Machine

/-- The status-flag test on numbers: the upper nibble is 15 (R86). -/
theorem statusFlagged_iff (x : Byte) : statusFlagged x = true ↔ x.toNat / 16 = 15 := by
  revert x
  decide

/-- Header-1 acceptance on numbers (R105). -/
theorem hdr1Ok_hw_iff (x : Byte) :
    hdr1Ok Config.hw x = true ↔ x = 0x55#8 ∨ x = 0xAA#8 ∨ x.toNat / 16 = 15 := by
  revert x
  decide

/-- A store inside the buffer. -/
theorem memWrite_of_lt {a : Nat} (b : Byte) (s : State) (ha : a < 24) :
    memWrite a b s = some { s with buf := s.buf.write a b } :=
  if_pos ha

/-- A store outside the buffer. -/
theorem memWrite_of_ge {a : Nat} (b : Byte) (s : State) (ha : 24 ≤ a) : memWrite a b s = none :=
  if_neg (by simpa using ha)

/-- The state in which the byte at the cursor is checked: invocation stamped, byte stored. -/
def storedByte (b : Byte) (s : State) : State :=
  { stampInvocation s with buf := s.buf.write s.cur.toNat b }

@[simp] theorem storedByte_buf (b : Byte) (s : State) :
    (storedByte b s).buf = s.buf.write s.cur.toNat b := rfl
@[simp] theorem storedByte_cur (b : Byte) (s : State) : (storedByte b s).cur = s.cur :=
  stampInvocation_cur s
@[simp] theorem storedByte_lastT (b : Byte) (s : State) :
    (storedByte b s).lastT = if s.invFresh then s.invNow else s.lastT := stampInvocation_lastT s
@[simp] theorem storedByte_invNow (b : Byte) (s : State) : (storedByte b s).invNow = s.invNow :=
  stampInvocation_invNow s
@[simp] theorem storedByte_invFresh (b : Byte) (s : State) : (storedByte b s).invFresh = false :=
  stampInvocation_invFresh s
@[simp] theorem storedByte_warn (b : Byte) (s : State) : (storedByte b s).warn = s.warn :=
  stampInvocation_warn s
@[simp] theorem storedByte_accV (b : Byte) (s : State) : (storedByte b s).accV = s.accV :=
  stampInvocation_accV s
@[simp] theorem storedByte_accI (b : Byte) (s : State) : (storedByte b s).accI = s.accI :=
  stampInvocation_accI s
@[simp] theorem storedByte_accP (b : Byte) (s : State) : (storedByte b s).accP = s.accP :=
  stampInvocation_accP s
@[simp] theorem storedByte_energy (b : Byte) (s : State) : (storedByte b s).energy = s.energy :=
  stampInvocation_energy s
@[simp] theorem storedByte_inputs (b : Byte) (s : State) : (storedByte b s).inputs = s.inputs :=
  stampInvocation_inputs s
@[simp] theorem storedByte_rsp (b : Byte) (s : State) : (storedByte b s).rsp = s.rsp :=
  stampInvocation_rsp s

/-- A delivered byte is stored at the cursor and checked there (R103). -/
theorem deliverByte_of_lt (c : Params) (b : Byte) (s : State) (h : s.cur.toNat < 24) :
    deliverByte c b s = checkByte c s.cur (storedByte b s) := by
  have hb : (stampInvocation s).buf = s.buf := stampInvocation_buf s
  simp only [deliverByte, memWrite_of_lt b (stampInvocation s) h, storedByte, hb]

/-- A cursor outside the frame stops the machine. -/
theorem deliverByte_of_ge (c : Params) (b : Byte) (s : State) (h : 24 ≤ s.cur.toNat) :
    deliverByte c b s = .fault .addressOutsideBuffer := by
  simp only [deliverByte, memWrite_of_ge b (stampInvocation s) h]

/-- What completing a frame can do on the hardware (R159): discard it or commit it. -/
theorem completeFrame_cases (s : State) :
    (∃ evt info, (evt = .frameUncalibrated ∧ info = 0#4 ∨ evt = .frameAbortStatus ∨ evt = .frameZeroCycle) ∧
        (∀ r, decodeFrame Config.hw s.buf ≠ .ok r) ∧
        completeFrame Config.hw s = .next (discardFrame evt info s)) ∨
    (∃ r, decodeFrame Config.hw s.buf = .ok r ∧
        completeFrame Config.hw s = .next (commitFrame r s)) := by
  unfold completeFrame
  cases h : decodeFrame Config.hw s.buf with
  | uncalibrated => exact .inl ⟨_, _, .inl ⟨rfl, rfl⟩, by simp, rfl⟩
  | abortStatus bits => exact .inl ⟨_, _, .inr (.inl rfl), by simp, rfl⟩
  | zeroCycle w => exact .inl ⟨_, _, .inr (.inr rfl), by simp, rfl⟩
  | ok r => exact .inr ⟨r, rfl, rfl⟩

/-- What delivering a byte can do on the hardware, for a cursor in the frame (R103). -/
theorem deliverByte_cases (b : Byte) (s : State) (h : s.cur.toNat < 24) :
    (valid Config.hw (storedByte b s).buf s.cur.toNat = false ∧
        deliverByte Config.hw b s = .next (rejectByte s.cur (storedByte b s))) ∨
    (valid Config.hw (storedByte b s).buf s.cur.toNat = true ∧ s.cur.toNat < 23 ∧
        deliverByte Config.hw b s = .next (acceptByte s.cur (storedByte b s))) ∨
    (valid Config.hw (storedByte b s).buf s.cur.toNat = true ∧ s.cur.toNat = 23 ∧
        deliverByte Config.hw b s = completeFrame Config.hw (storedByte b s)) := by
  rw [deliverByte_of_lt _ _ _ h]
  unfold checkByte
  cases hv : valid Config.hw (storedByte b s).buf s.cur.toNat with
  | false => exact .inl ⟨rfl, rfl⟩
  | true =>
    by_cases hp : s.cur.toNat = 23
    · exact .inr (.inr ⟨rfl, hp, by simp [hp]⟩)
    · exact .inr (.inl ⟨rfl, by omega, by simp [hp]⟩)

/-- Every instruction that carries a stream byte delivers it. -/
theorem exec_of_streamByte {i : Instr} {b : Byte} (h : i.streamByte = some b) (s : State) :
    exec i s = deliverByte Config.hw b s := by
  cases i <;> simp only [Instr.streamByte, Option.some.injEq, reduceCtorEq] at h <;> subst h <;> rfl

/-- What an instruction that carries no stream byte can do. -/
theorem exec_of_no_streamByte {i : Instr} (h : i.streamByte = none) (s : State) :
    (i = .nop ∧ exec i s = .next (nopCommand s)) ∨
    (∃ now, i = .poll now ∧ exec i s = .next (pollCommand Config.hw now s)) ∨
    (i = .publish ∧ exec i s = .next (publishCommand s)) ∨
    (((∃ op, i = .reserved47 op) ∨ ∃ op, i = .reserved8F op) ∧
      exec i s = .next (respond { evt := .illegalCmd } s)) := by
  cases i with
  | nop => exact .inl ⟨rfl, rfl⟩
  | poll now => exact .inr (.inl ⟨now, rfl, rfl⟩)
  | publish => exact .inr (.inr (.inl ⟨rfl, rfl⟩))
  | reserved47 op => exact .inr (.inr (.inr ⟨.inl ⟨op, rfl⟩, rfl⟩))
  | reserved8F op => exact .inr (.inr (.inr ⟨.inr ⟨op, rfl⟩, rfl⟩))
  | _ => simp [Instr.streamByte] at h

/-- With the hardware's parameters the parametric machine is the machine. -/
theorem execWith_hw (i : Instr) (s : State) : execWith Config.hw i s = exec i s := by
  cases i <;> rfl

theorem stepWith_hw (s : State) : stepWith Config.hw s = step s := by
  unfold stepWith step
  cases takeInput s with
  | command w s' => exact execWith_hw _ _
  | _ => rfl

/-- What one step can do: hold, reset, or run one command (R3, R237, R250). -/
theorem step_cases (s : State) :
    (s.inputs = [] ∧ step s = .next s) ∨
    (∃ during rest, s.inputs = .rst during :: rest ∧
      step s = .next (applyReset { s with inputs := rest })) ∨
    (∃ w rest, s.inputs = .cmd w :: rest ∧
      step s = exec (decodeCmd w) { s with inputs := rest }) := by
  unfold step takeInput
  cases h : s.inputs with
  | nil => exact .inl ⟨rfl, rfl⟩
  | cons inp rest =>
    cases inp with
    | rst during => exact .inr (.inl ⟨during, rest, rfl, rfl⟩)
    | cmd w => exact .inr (.inr ⟨w, rest, rfl, rfl⟩)

end Sys2Proof.Machine
end

