-- ==== Sys2Proof/Laws/Frame.lean ====
section
/-!
SUPPORT. The frame validator at each kind of position, and the three ends of a stream byte as one update each.
-/

namespace Sys2Proof.Machine

/-- The checksum's sum is the sum over positions 2 to 22 (R108). -/
theorem bodySum_eq_bodyTotal (m : Memory) : bodySum m = bodyTotal m := by
  simp [bodySum, bodyTotal, List.range', Finset.sum_Icc_succ_top, add_assoc]

/-- A store at position 23 does not change the body. -/
theorem bodyTotal_write_last (m : Memory) (b : Byte) : bodyTotal (m.write 23 b) = bodyTotal m := by
  unfold bodyTotal
  refine Finset.sum_congr rfl fun k hk => ?_
  rw [Finset.mem_Icc] at hk
  rw [Memory.read_write_other b (by omega)]

/-- Header 1 (R105): the byte just stored at position 0. -/
theorem valid_stored_hdr1 {m : Memory} (c : Params) (b : Byte) (h : m.wf = true) :
    valid c (m.write 0 b) 0 = hdr1Ok c b := by
  unfold valid
  rw [if_pos rfl, Memory.read_write_same b h]

/-- Header 2 (R106): the byte just stored at position 1. -/
theorem valid_stored_hdr2 {m : Memory} (c : Params) (b : Byte) (h : m.wf = true) :
    valid c (m.write 1 b) 1 = (b == c.sync2) := by
  unfold valid
  rw [if_neg (by decide), if_pos rfl, Memory.read_write_same b h]

/-- Body positions (R107). -/
theorem valid_body (c : Params) (m : Memory) {p : Nat} (h2 : 2 ≤ p) (h22 : p ≤ 22) : valid c m p = true := by
  unfold valid
  rw [if_neg (by omega), if_neg (by omega), if_neg (show ¬p = 23 by omega)]
  exact decide_eq_true (show p < 23 by omega)

/-- The checksum (R108): the byte just stored at position 23. -/
theorem valid_stored_last {m : Memory} (c : Params) (b : Byte) (h : m.wf = true) :
    valid c (m.write 23 b) 23 = decide (bodyTotal m % 256 = b.toNat) := by
  unfold valid checksumOk
  rw [if_neg (by decide), if_neg (by decide), if_pos rfl, bodySum_eq_bodyTotal, bodyTotal_write_last,
    Memory.read_write_same b h]
  rfl

/-- A rejection as one update. -/
theorem rejectByte_stored (b : Byte) (s : State) :
    rejectByte s.cur (storedByte b s) =
      afterByte b 0#5 true { evt := rejectEvent s.cur.toNat, pos := s.cur } s := by
  unfold rejectByte storedByte
  rw [stampInvocation_eq]
  rfl

/-- An acceptance as one update. -/
theorem acceptByte_stored (b : Byte) (s : State) :
    acceptByte s.cur (storedByte b s) =
      afterByte b (s.cur + 1#5) s.warn { evt := .byteAccepted, pos := s.cur } s := by
  unfold acceptByte storedByte
  rw [stampInvocation_eq]
  rfl

/-- A discarded frame as one update. -/
theorem discardFrame_stored (evt : Event) (info : BitVec 4) (b : Byte) (s : State) :
    discardFrame evt info (storedByte b s) =
      afterByte b 0#5 false { evt := evt, pos := 23#5, info := info } s := by
  unfold discardFrame storedByte
  rw [stampInvocation_eq]
  rfl

/-- A committed frame as updates: the quantities of `commit`, then the end of the frame. -/
theorem commitFrame_stored (r : DecodeRecord) (b : Byte) (s : State) :
    commitFrame r (storedByte b s) =
      { afterByte b 0#5 false (commitResponse r s.energy) s with
        accV := (commitRegs r s).accV
        accI := (commitRegs r s).accI
        accP := (commitRegs r s).accP
        energy := (commitRegs r s).energy } := by
  unfold commitFrame storedByte
  rw [stampInvocation_eq]
  rfl

/-- What a stream byte does on the hardware, for a cursor in the frame: it is rejected, accepted, or completes a
frame that is discarded or committed (R103, R159). -/
theorem deliverByte_ends (b : Byte) (s : State) (h : s.cur.toNat < 24) :
    (valid Config.hw (s.buf.write s.cur.toNat b) s.cur.toNat = false ∧
      deliverByte Config.hw b s =
        .next (afterByte b 0#5 true { evt := rejectEvent s.cur.toNat, pos := s.cur } s)) ∨
    (valid Config.hw (s.buf.write s.cur.toNat b) s.cur.toNat = true ∧ s.cur.toNat < 23 ∧
      deliverByte Config.hw b s =
        .next (afterByte b (s.cur + 1#5) s.warn { evt := .byteAccepted, pos := s.cur } s)) ∨
    (valid Config.hw (s.buf.write 23 b) 23 = true ∧ s.cur = 23#5 ∧
      ∃ evt info, (evt = .frameUncalibrated ∧ info = 0#4 ∨ evt = .frameAbortStatus ∨ evt = .frameZeroCycle) ∧
        (∀ r, decodeFrame Config.hw (s.buf.write 23 b) ≠ .ok r) ∧
        deliverByte Config.hw b s =
          .next (afterByte b 0#5 false { evt := evt, pos := 23#5, info := info } s)) ∨
    (valid Config.hw (s.buf.write 23 b) 23 = true ∧ s.cur = 23#5 ∧
      ∃ r, decodeFrame Config.hw (s.buf.write 23 b) = .ok r ∧
        deliverByte Config.hw b s = .next (commitFrame r (storedByte b s))) := by
  have hlast : s.cur.toNat = 23 → s.cur = 23#5 := fun h => BitVec.eq_of_toNat_eq h
  rcases deliverByte_cases b s h with ⟨hv, hd⟩ | ⟨hv, hlt, hd⟩ | ⟨hv, heq, hd⟩
  · exact .inl ⟨hv, hd.trans (by rw [rejectByte_stored])⟩
  · exact .inr (.inl ⟨hv, hlt, hd.trans (by rw [acceptByte_stored])⟩)
  · have hbuf : (storedByte b s).buf = s.buf.write 23 b := by rw [storedByte_buf, heq]
    rw [hbuf, heq] at hv
    rcases completeFrame_cases (storedByte b s) with ⟨evt, info, hevt, hno, hc⟩ | ⟨r, hr, hc⟩
    · rw [hbuf] at hno
      exact .inr (.inr (.inl ⟨hv, hlast heq, evt, info, hevt, hno,
        hd.trans (hc.trans (by rw [discardFrame_stored]))⟩))
    · rw [hbuf] at hr
      exact .inr (.inr (.inr ⟨hv, hlast heq, r, hr, hd.trans hc⟩))

/-- Header-1 acceptance as R105 lists it. -/
theorem hdr1Ok_hw_iff_classes (b : Byte) :
    hdr1Ok Config.hw b = true ↔ b = 0x55#8 ∨ b = 0xAA#8 ∨ 0xF0 ≤ b.toNat := by
  rw [hdr1Ok_hw_iff, show b.toNat / 16 = 15 ↔ 0xF0 ≤ b.toNat by omega]

/-- What any instruction can do when it ends in a next state: one of the commands that deliver no byte, or one
of the four ends of a stream byte. -/
theorem exec_ends {i : Instr} {s t : State} (h : exec i s = .next t) :
    (i = .nop ∧ t = nopCommand s) ∨
    (∃ now, i = .poll now ∧ t = pollCommand Config.hw now s) ∨
    (i = .publish ∧ t = publishCommand s) ∨
    (((∃ op, i = .reserved47 op) ∨ ∃ op, i = .reserved8F op) ∧ t = respond { evt := .illegalCmd } s) ∨
    ∃ b, i.streamByte = some b ∧ s.cur.toNat < 24 ∧
      ((valid Config.hw (s.buf.write s.cur.toNat b) s.cur.toNat = false ∧
        t = afterByte b 0#5 true { evt := rejectEvent s.cur.toNat, pos := s.cur } s) ∨
      (valid Config.hw (s.buf.write s.cur.toNat b) s.cur.toNat = true ∧ s.cur.toNat < 23 ∧
        t = afterByte b (s.cur + 1#5) s.warn { evt := .byteAccepted, pos := s.cur } s) ∨
      (valid Config.hw (s.buf.write 23 b) 23 = true ∧ s.cur = 23#5 ∧
        ∃ evt info, (evt = .frameUncalibrated ∧ info = 0#4 ∨ evt = .frameAbortStatus ∨
            evt = .frameZeroCycle) ∧
          (∀ r, decodeFrame Config.hw (s.buf.write 23 b) ≠ .ok r) ∧
          t = afterByte b 0#5 false { evt := evt, pos := 23#5, info := info } s) ∨
      (valid Config.hw (s.buf.write 23 b) 23 = true ∧ s.cur = 23#5 ∧
        ∃ r, decodeFrame Config.hw (s.buf.write 23 b) = .ok r ∧ t = commitFrame r (storedByte b s))) := by
  cases hb : i.streamByte with
  | none =>
    rcases exec_of_no_streamByte hb s with ⟨hi, h'⟩ | ⟨now, hi, h'⟩ | ⟨hi, h'⟩ | ⟨hi, h'⟩ <;>
      rw [h'] at h <;> injection h with h
    · exact .inl ⟨hi, h.symm⟩
    · exact .inr (.inl ⟨now, hi, h.symm⟩)
    · exact .inr (.inr (.inl ⟨hi, h.symm⟩))
    · exact .inr (.inr (.inr (.inl ⟨hi, h.symm⟩)))
  | some b =>
    rw [exec_of_streamByte hb] at h
    by_cases hlt : s.cur.toNat < 24
    · refine .inr (.inr (.inr (.inr ⟨b, rfl, hlt, ?_⟩)))
      rcases deliverByte_ends b s hlt with ⟨hv, hd⟩ | ⟨hv, hl, hd⟩ | ⟨hv, hc, evt, info, he, hn, hd⟩ |
        ⟨hv, hc, r, hr, hd⟩ <;> rw [hd] at h <;> injection h with h
      · exact .inl ⟨hv, h.symm⟩
      · exact .inr (.inl ⟨hv, hl, h.symm⟩)
      · exact .inr (.inr (.inl ⟨hv, hc, evt, info, he, hn, h.symm⟩))
      · exact .inr (.inr (.inr ⟨hv, hc, r, hr, h.symm⟩))
    · rw [deliverByte_of_ge _ _ _ (by omega)] at h
      cases h

end Sys2Proof.Machine
end

