-- ==== Sys2Proof/Laws/Numeric.lean ====
section
/-!
SUPPORT. The laws of binary32 rounding: what a pattern is worth, where `flMag` rounds to, that rounding is
monotone and exact on representable values.
-/

namespace Sys2Proof.Machine

/-- The worth of a non-negative pattern in units of 2^-149, extended beyond the finite ones. -/
def magUnits (p : Nat) : Nat :=
  if p / 2 ^ 23 = 0 then p % 2 ^ 23 else (2 ^ 23 + p % 2 ^ 23) * 2 ^ (p / 2 ^ 23 - 1)

/-- A significand `m` cut at bit `k` is the pattern `k * 2^23 + m`; a carry to 2^24 raises the exponent. -/
theorem magUnits_cut {k m : Nat} (hm : m ≤ 2 ^ 24) (h : k = 0 ∨ 2 ^ 23 ≤ m) :
    magUnits (k * 2 ^ 23 + m) = m * 2 ^ k := by
  unfold magUnits
  by_cases hlow : m < 2 ^ 23
  · have hk : k = 0 := by omega
    subst hk
    have h1 : (0 * 2 ^ 23 + m) / 2 ^ 23 = 0 := by omega
    rw [if_pos h1]
    omega
  · by_cases htop : m = 2 ^ 24
    · subst htop
      have h1 : (k * 2 ^ 23 + 2 ^ 24) / 2 ^ 23 = k + 2 := by omega
      have h2 : (k * 2 ^ 23 + 2 ^ 24) % 2 ^ 23 = 0 := by omega
      rw [h1, h2, if_neg (by omega), show k + 2 - 1 = k + 1 by omega, pow_succ]
      ring
    · have h1 : (k * 2 ^ 23 + m) / 2 ^ 23 = k + 1 := by omega
      have h2 : (k * 2 ^ 23 + m) % 2 ^ 23 = m - 2 ^ 23 := by omega
      rw [h1, h2, if_neg (by omega), show k + 1 - 1 = k by omega,
        show 2 ^ 23 + (m - 2 ^ 23) = m by omega]

/-- Every pattern is such a cut. -/
theorem exists_cut (p : Nat) :
    ∃ k m, p = k * 2 ^ 23 + m ∧ m < 2 ^ 24 ∧ (k = 0 ∨ 2 ^ 23 ≤ m) := by
  by_cases h : p / 2 ^ 23 = 0
  · exact ⟨0, p, by omega, by omega, .inl rfl⟩
  · exact ⟨p / 2 ^ 23 - 1, 2 ^ 23 + p % 2 ^ 23, by omega, by omega, .inr (by omega)⟩

theorem magUnits_lt_succ (p : Nat) : magUnits p < magUnits (p + 1) := by
  obtain ⟨k, m, rfl, hm, hk⟩ := exists_cut p
  rw [magUnits_cut (by omega) hk, show k * 2 ^ 23 + m + 1 = k * 2 ^ 23 + (m + 1) by omega,
    magUnits_cut (by omega) (by omega)]
  exact Nat.mul_lt_mul_of_pos_right (Nat.lt_succ_self m) (by positivity)

/-- Patterns are ordered as their values are. -/
theorem magUnits_strictMono : StrictMono magUnits :=
  strictMono_nat_of_lt_succ magUnits_lt_succ

/-- The leading 24 bits of a number, or all of them. -/
theorem leading_bits (q : Nat) :
    q / 2 ^ (q.log2 - 23) < 2 ^ 24 ∧ (q.log2 - 23 = 0 ∨ 2 ^ 23 ≤ q / 2 ^ (q.log2 - 23)) := by
  by_cases hq : q = 0
  · subst hq
    decide
  have hlo := Nat.log2_self_le hq
  have hhi := Nat.lt_log2_self (n := q)
  by_cases hl : q.log2 ≤ 23
  · have hk : q.log2 - 23 = 0 := by omega
    rw [hk]
    refine ⟨?_, .inl rfl⟩
    rw [pow_zero, Nat.div_one]
    exact lt_of_lt_of_le hhi (Nat.pow_le_pow_right (by norm_num) (by omega))
  · obtain ⟨k, hk⟩ : ∃ k, q.log2 = k + 23 := ⟨q.log2 - 23, by omega⟩
    rw [hk] at hlo hhi ⊢
    rw [Nat.add_sub_cancel]
    refine ⟨?_, .inr ?_⟩
    · rw [Nat.div_lt_iff_lt_mul (by positivity), ← pow_add]
      exact lt_of_lt_of_eq hhi (by congr 1; omega)
    · rw [Nat.le_div_iff_mul_le (by positivity), ← pow_add]
      exact le_of_eq_of_le (by congr 1; omega) hlo

/-- Where rounding goes: the quotient lies between the worths of two neighbouring patterns, and the nearer
one is taken, the even one at a tie. -/
theorem flMag_bracket (n : Nat) {d : Nat} (hd : 0 < d) :
    ∃ P, magUnits P * d ≤ n * unitsPerOne ∧ n * unitsPerOne < magUnits (P + 1) * d ∧
      flMag n d = min (P + if (magUnits P + magUnits (P + 1)) * d < 2 * (n * unitsPerOne) ∨
        (2 * (n * unitsPerOne) = (magUnits P + magUnits (P + 1)) * d ∧ P % 2 = 1) then 1 else 0)
        infinityBits := by
  unfold flMag
  generalize n * unitsPerOne = N
  have hcut := leading_bits (N / d)
  simp only
  generalize (N / d).log2 - 23 = k at *
  rw [Nat.div_div_eq_div_mul] at hcut
  have hpos : 0 < d * 2 ^ k := by positivity
  have hmul := Nat.div_add_mod N (d * 2 ^ k)
  have hr : N % (d * 2 ^ k) < d * 2 ^ k := Nat.mod_lt _ hpos
  generalize N % (d * 2 ^ k) = r at *
  generalize N / (d * 2 ^ k) = m at *
  have hlow : magUnits (k * 2 ^ 23 + m) * d = d * 2 ^ k * m := by
    rw [magUnits_cut (le_of_lt hcut.1) hcut.2]
    ring
  have hhigh : magUnits (k * 2 ^ 23 + m + 1) * d = d * 2 ^ k * m + d * 2 ^ k := by
    rw [Nat.add_assoc, magUnits_cut (m := m + 1) hcut.1 (hcut.2.imp_right fun h => Nat.le_succ_of_le h)]
    ring
  refine ⟨k * 2 ^ 23 + m, ?_, ?_, ?_⟩
  · rw [hlow, ← hmul]
    exact Nat.le_add_right _ _
  · rw [hhigh, ← hmul]
    exact Nat.add_lt_add_left hr _
  · rw [Nat.add_mul, hlow, hhigh, Nat.add_assoc (k * 2 ^ 23)]
    have hpar : (k * 2 ^ 23 + m) % 2 = m % 2 := by
      rw [show (2 : Nat) ^ 23 = 2 * 2 ^ 22 by norm_num, ← Nat.mul_assoc, Nat.mul_comm k 2, Nat.mul_assoc,
        Nat.mul_add_mod]
    rw [hpar]
    generalize d * 2 ^ k * m = A at *
    generalize d * 2 ^ k = D at *
    have hc : (D < 2 * r ∨ 2 * r = D ∧ m % 2 = 1) ↔
        (A + (A + D) < 2 * N ∨ 2 * N = A + (A + D) ∧ m % 2 = 1) := by
      omega
    rw [if_congr hc rfl rfl]

/-- Rounding never reaches beyond infinity's pattern. -/
theorem flMag_le_infinity (n d : Nat) : flMag n d ≤ infinityBits := Nat.min_le_right _ _

/-- Between neighbours of one increasing scale, a larger quotient is rounded at least as far. -/
theorem round_mono {M : Nat → Nat} (hM : StrictMono M) {d d' N N' P Q : Nat} (hd : 0 < d) (hd' : 0 < d')
    (hlo : M P * d ≤ N) (hhi' : N' < M (Q + 1) * d') (hx : N * d' ≤ N' * d) :
    (P + if (M P + M (P + 1)) * d < 2 * N ∨ (2 * N = (M P + M (P + 1)) * d ∧ P % 2 = 1) then 1 else 0) ≤
      Q + if (M Q + M (Q + 1)) * d' < 2 * N' ∨ (2 * N' = (M Q + M (Q + 1)) * d' ∧ Q % 2 = 1) then 1
        else 0 := by
  have hPQ : P ≤ Q := by
    by_contra hlt
    have h1 : M (Q + 1) ≤ M P := hM.monotone (by omega)
    have h2 : N' * d < M (Q + 1) * d' * d := Nat.mul_lt_mul_of_pos_right hhi' hd
    have h3 : M P * d * d' ≤ N * d' := Nat.mul_le_mul_right _ hlo
    have h4 : M (Q + 1) * d' * d ≤ M P * d * d' := by
      calc M (Q + 1) * d' * d = M (Q + 1) * (d' * d) := by ring
        _ ≤ M P * (d' * d) := Nat.mul_le_mul_right _ h1
        _ = M P * d * d' := by ring
    omega
  rcases Nat.lt_or_ge P Q with hlt | hge
  · split_ifs <;> omega
  · have hPeq : P = Q := by omega
    subst hPeq
    generalize M P + M (P + 1) = S
    split_ifs with h1 h2
    · exact le_refl _
    · exfalso
      apply h2
      have hx2 : 2 * N * d' ≤ 2 * N' * d := by
        rw [Nat.mul_assoc, Nat.mul_assoc]
        exact Nat.mul_le_mul_left 2 hx
      have hcomm : S * d' * d = S * d * d' := Nat.mul_right_comm _ _ _
      have hlow : S * d ≤ 2 * N := by omega
      have h3 : S * d * d' ≤ 2 * N * d' := Nat.mul_le_mul_right _ hlow
      rcases Nat.lt_trichotomy (2 * N') (S * d') with hlt | heq | hgt
      · have : 2 * N' * d < S * d' * d := Nat.mul_lt_mul_of_pos_right hlt hd
        omega
      · refine .inr ⟨heq, ?_⟩
        rcases h1 with h1 | h1
        · have : S * d * d' < 2 * N * d' := Nat.mul_lt_mul_of_pos_right h1 hd'
          rw [heq] at hx2
          omega
        · exact h1.2
      · exact .inl hgt
    · exact Nat.le_succ _
    · exact le_refl _

/-- Rounding is monotone. -/
theorem flMag_mono {n d n' d' : Nat} (hd : 0 < d) (hd' : 0 < d') (h : n * d' ≤ n' * d) :
    flMag n d ≤ flMag n' d' := by
  obtain ⟨P, hlo, -, he⟩ := flMag_bracket n hd
  obtain ⟨Q, -, hhi', he'⟩ := flMag_bracket n' hd'
  rw [he, he']
  refine min_le_min_right _ (round_mono magUnits_strictMono hd hd' hlo hhi' ?_)
  rw [Nat.mul_right_comm, Nat.mul_right_comm n']
  exact Nat.mul_le_mul_right _ h

/-- A representable value is not changed by rounding. -/
theorem flMag_exact {n d p : Nat} (hd : 0 < d) (h : n * unitsPerOne = magUnits p * d)
    (hp : p ≤ infinityBits) : flMag n d = p := by
  obtain ⟨P, hlo, hhi, he⟩ := flMag_bracket n hd
  rw [h] at hlo hhi he
  have h1 : P ≤ p := magUnits_strictMono.le_iff_le.1 (Nat.le_of_mul_le_mul_right hlo hd)
  have h2 : p < P + 1 := magUnits_strictMono.lt_iff_lt.1 (Nat.lt_of_mul_lt_mul_right hhi)
  have hPp : P = p := by omega
  subst hPp
  have hlt := magUnits_lt_succ P
  have hc : ¬((magUnits P + magUnits (P + 1)) * d < 2 * (magUnits P * d) ∨
      2 * (magUnits P * d) = (magUnits P + magUnits (P + 1)) * d ∧ P % 2 = 1) := by
    have : magUnits P * d < magUnits (P + 1) * d := Nat.mul_lt_mul_of_pos_right hlt hd
    have : (magUnits P + magUnits (P + 1)) * d = magUnits P * d + magUnits (P + 1) * d := by ring
    omega
  rw [he, if_neg hc, Nat.add_zero]
  exact min_eq_left hp

/-- A quotient at most a representable value rounds to at most that value. -/
theorem flMag_le_of_le {n d p : Nat} (hd : 0 < d) (h : n * unitsPerOne ≤ magUnits p * d)
    (hp : p ≤ infinityBits) : flMag n d ≤ p := by
  rw [← flMag_exact (n := magUnits p) (d := unitsPerOne) (by positivity) (by ring) hp]
  exact flMag_mono hd (by positivity) (by linarith)

/-- A quotient at least a representable value rounds to at least that value. -/
theorem le_flMag_of_le {n d p : Nat} (hd : 0 < d) (h : magUnits p * d ≤ n * unitsPerOne)
    (hp : p ≤ infinityBits) : p ≤ flMag n d := by
  rw [← flMag_exact (n := magUnits p) (d := unitsPerOne) (by positivity) (by ring) hp]
  exact flMag_mono (by positivity) hd (by linarith)

/-- A pattern that stays below half a step above a representable one rounds down to it. -/
theorem flMag_absorb {n d p : Nat} (hd : 0 < d) (h1 : magUnits p * d ≤ n * unitsPerOne)
    (h2 : 2 * (n * unitsPerOne) < (magUnits p + magUnits (p + 1)) * d) (hp : p ≤ infinityBits) :
    flMag n d = p := by
  obtain ⟨P, hlo, hhi, he⟩ := flMag_bracket n hd
  have hlt := magUnits_lt_succ p
  have hstep : n * unitsPerOne < magUnits (p + 1) * d := by
    have : magUnits p * d < magUnits (p + 1) * d := Nat.mul_lt_mul_of_pos_right hlt hd
    have : (magUnits p + magUnits (p + 1)) * d = magUnits p * d + magUnits (p + 1) * d := by ring
    omega
  have hPp : P ≤ p := by
    have : magUnits P < magUnits (p + 1) := Nat.lt_of_mul_lt_mul_right (lt_of_le_of_lt hlo hstep)
    have := magUnits_strictMono.lt_iff_lt.1 this
    omega
  have hpP : p ≤ P := by
    have : magUnits p < magUnits (P + 1) := Nat.lt_of_mul_lt_mul_right (lt_of_le_of_lt h1 hhi)
    have := magUnits_strictMono.lt_iff_lt.1 this
    omega
  have hPeq : P = p := by omega
  subst hPeq
  rw [he, if_neg (by omega), Nat.add_zero]
  exact min_eq_left hp

/-- The exact value of a finite non-negative pattern. -/
theorem numUnits_of_lt {x : Numeric} (h : x.toNat < infinityBits) :
    numUnits x = some (magUnits x.toNat : Int) := by
  have hmsb : x.msb = false := by
    rw [BitVec.msb_eq_decide]
    simp only [infinityBits] at h
    simp
    omega
  unfold numUnits magUnits
  have h1 : x.toNat / 2 ^ 23 % 256 = x.toNat / 2 ^ 23 := by
    simp only [infinityBits] at h
    omega
  have h2 : x.toNat / 2 ^ 23 ≠ 255 := by
    simp only [infinityBits] at h
    omega
  simp only [h1, h2, hmsb, if_false, Bool.false_eq_true]

/-- The bits of a non-negative quotient. -/
theorem fl_toNat (n d : Nat) : (fl (n : Int) d).toNat = flMag n d := by
  have hle := flMag_le_infinity n d
  unfold fl
  rw [if_neg (by omega), BitVec.toNat_ofNat, Int.toNat_natCast]
  simp only [infinityBits] at hle
  omega

theorem magUnits_zero : magUnits 0 = 0 := by decide

/-- A sum of finite non-negative numbers, as bits. -/
theorem numAdd_toNat {x y : Numeric} (hx : x.toNat < infinityBits) (hy : y.toNat < infinityBits) :
    (numAdd x y).toNat = flMag (magUnits x.toNat + magUnits y.toNat) unitsPerOne := by
  unfold numAdd
  rw [numUnits_of_lt hx, numUnits_of_lt hy]
  simp only
  rw [← Int.natCast_add, fl_toNat]

/-- A product of finite non-negative numbers, as bits. -/
theorem numMul_toNat {x y : Numeric} (hx : x.toNat < infinityBits) (hy : y.toNat < infinityBits) :
    (numMul x y).toNat = flMag (magUnits x.toNat * magUnits y.toNat) (unitsPerOne * unitsPerOne) := by
  unfold numMul
  rw [numUnits_of_lt hx, numUnits_of_lt hy]
  simp only
  rw [← Int.natCast_mul, fl_toNat]

/-- A quotient of a finite non-negative number by a finite positive one, as bits. -/
theorem numDiv_toNat {x y : Numeric} (hx : x.toNat < infinityBits) (hy : y.toNat < infinityBits)
    (hy0 : 0 < y.toNat) : (numDiv x y).toNat = flMag (magUnits x.toNat) (magUnits y.toNat) := by
  have hpos : 0 < magUnits y.toNat := by
    have := magUnits_strictMono hy0
    omega
  unfold numDiv
  rw [numUnits_of_lt hx, numUnits_of_lt hy]
  simp only
  rw [if_neg (by omega), Int.sign_eq_one_of_pos (by omega), mul_one, Int.natAbs_natCast, fl_toNat]

/-- `x + 0 = x`. -/
theorem numAdd_plusZero {x : Numeric} (hx : x.toNat < infinityBits) : numAdd x plusZero = x := by
  apply BitVec.eq_of_toNat_eq
  rw [numAdd_toNat hx (by simp [infinityBits])]
  refine flMag_exact (by positivity) ?_ (by omega)
  simp [magUnits_zero]

/-- A sum never falls below its first term. -/
theorem le_numAdd {x y : Numeric} (hx : x.toNat < infinityBits) (hy : y.toNat < infinityBits) :
    x.toNat ≤ (numAdd x y).toNat := by
  rw [numAdd_toNat hx hy]
  exact le_flMag_of_le (by positivity) (Nat.mul_le_mul_right _ (Nat.le_add_right _ _)) (by omega)

/-- A running sum below `2^(j+25)` stays there under samples up to `2^j`: the larger value absorbs them.
`T` is the pattern of the bound and `X` that of the largest sample; `T - 1` and `T + 1` are its neighbours. -/
theorem numAdd_bounded {x y : Numeric} {T X : Nat} (hT : T < infinityBits) (hT0 : 0 < T)
    (hgap : magUnits (T - 1) + magUnits X < magUnits T)
    (hhalf : 2 * magUnits X < magUnits (T + 1) - magUnits T)
    (hx : x.toNat ≤ T) (hy : y.toNat ≤ X) (hX : X < infinityBits) : (numAdd x y).toNat ≤ T := by
  rw [numAdd_toNat (by omega) (by omega)]
  have hyX : magUnits y.toNat ≤ magUnits X := magUnits_strictMono.monotone hy
  rcases Nat.lt_or_ge x.toNat T with hlt | hge
  · have hxT : magUnits x.toNat ≤ magUnits (T - 1) := magUnits_strictMono.monotone (by omega)
    exact flMag_le_of_le (by positivity) (Nat.mul_le_mul_right _ (by omega)) (by omega)
  · have hxT : x.toNat = T := by omega
    have hstep := magUnits_lt_succ T
    rw [hxT]
    refine le_of_eq (flMag_absorb (by positivity) (Nat.mul_le_mul_right _ (Nat.le_add_right _ _)) ?_
      (by omega))
    rw [← mul_assoc]
    refine Nat.mul_lt_mul_of_pos_right ?_ (by positivity)
    omega

end Sys2Proof.Machine
end

