-- ==== Sys2Proof/Laws/Convert.lean ====
section
/-!
SUPPORT. What `decode` can return: the record of an `Ok` frame by its fields, the bounds of a converted
quantity, and where the proof model stops.
-/

namespace Sys2Proof.Machine

/-- An `Ok` record comes from steps 4 to 7, with no divisor zero (R140, R158). -/
theorem convertFields_ok {pcer : Bool} {f : Fields} {r : DecodeRecord} (h : convertFields pcer f = .ok r) :
    r.hv = f.hv ∧ r.hi = f.hi ∧ r.hp = f.hp ∧ r.pcer = pcer ∧ r.pcoef = f.pcoef ∧ r.cf = f.cf ∧
      convertVoltage f = .value r.v ∧ convertPower pcer f = .value r.p ∧
      convertCurrent r.p f = .value (r.i, r.p0) := by
  unfold convertFields at h
  split at h
  · cases h
  split at h
  · cases h
  split at h
  · cases h
  injection h with h
  subst h
  simp_all

/-- A frame decodes to a record only through its fields (R143). -/
theorem decodeFrame_ok {c : Params} {m : Memory} {r : DecodeRecord} (h : decodeFrame c m = .ok r) :
    convertFields (pcerOf (m.read 0)) (extractFields m) = .ok r := by
  unfold decodeFrame at h
  simp only at h
  split_ifs at h
  exact h

/-- The extra power sample is taken exactly with voltage and current and no power (R152). -/
theorem convertCurrent_p0 {p i : Numeric} {p0 : Bool} {f : Fields}
    (h : convertCurrent p f = .value (i, p0)) : p0 = (f.hi && f.hv && !f.hp) := by
  unfold convertCurrent at h
  generalize convertRatio ZeroCycle.current f.ccoef f.ccyc = q at h
  generalize (p != plusZero) = z at h
  generalize f.hi = hi at h ⊢
  generalize f.hv = hv at h ⊢
  generalize f.hp = hp at h ⊢
  cases hi <;> cases hv <;> cases hp <;> cases z <;> cases q <;> simp at h ⊢ <;>
    first | exact h.2.symm | exact h.2

/-- A quotient of non-zero fields is no zero (R151). -/
theorem numOfRatio_ne_zero {n d : Nat} (hn : 0 < n) (hd : 0 < d) (hd' : d < 2 ^ 24) :
    numOfRatio n d ≠ plusZero := by
  intro h
  have h2 := congrArg BitVec.toNat h
  unfold numOfRatio at h2
  rw [fl_toNat] at h2
  have hle := le_flMag_of_le (n := n) (d := d) (p := 1) hd (by
    rw [show magUnits 1 = 1 by decide]
    unfold unitsPerOne
    nlinarith [Nat.one_le_two_pow (n := 125), show (2 : Nat) ^ 149 = 2 ^ 24 * 2 ^ 125 by norm_num])
    (by simp [infinityBits])
  simp at h2
  omega

/-- A quotient of fields is at most 2^24 (R157). -/
theorem numOfRatio_le {n d : Nat} (hd : 0 < d) (hn : n < 2 ^ 24) :
    (numOfRatio n d).toNat ≤ 0x4B800000 := by
  unfold numOfRatio
  rw [fl_toNat]
  refine flMag_le_of_le hd ?_ (by simp [infinityBits])
  rw [show magUnits 0x4B800000 = 2 ^ 24 * 2 ^ 149 by decide]
  unfold unitsPerOne
  nlinarith [Nat.one_le_two_pow (n := 149)]

/-- A converted field pair is at most 2^24 (R157). -/
theorem convertRatio_le {w : ZeroCycle} {coef cyc : Raw24} {x : Numeric}
    (h : convertRatio w coef cyc = .value x) : x.toNat ≤ 0x4B800000 := by
  unfold convertRatio at h
  split_ifs at h with hz
  injection h with h
  subst h
  refine numOfRatio_le (Nat.pos_of_ne_zero fun h0 => hz ?_) coef.isLt
  exact BitVec.eq_of_toNat_eq h0

/-- Every converted quantity of an `Ok` record is at most 2^24, so it is finite and has no sign (R157). -/
theorem decodeFrame_ok_le {c : Params} {m : Memory} {r : DecodeRecord} (h : decodeFrame c m = .ok r) :
    r.v.toNat ≤ 0x4B800000 ∧ r.i.toNat ≤ 0x4B800000 ∧ r.p.toNat ≤ 0x4B800000 := by
  obtain ⟨-, -, -, -, -, -, hv, hp, hi⟩ := convertFields_ok (decodeFrame_ok h)
  refine ⟨?_, ?_, ?_⟩
  · unfold convertVoltage at hv
    split_ifs at hv
    · exact convertRatio_le hv
    · injection hv with hv
      rw [← hv]
      decide
  · unfold convertCurrent at hi
    split_ifs at hi
    · injection hi with hi
      injection hi with h1 h2
      rw [← h1]
      decide
    · split at hi
      · next hq =>
        injection hi with hi
        injection hi with h1 h2
        subst h1
        exact convertRatio_le hq
      · cases hi
    · injection hi with hi
      injection hi with h1 h2
      rw [← h1]
      decide
    · injection hi with hi
      injection hi with h1 h2
      rw [← h1]
      decide
  · unfold convertPower at hp
    split_ifs at hp
    · injection hp with hp
      rw [← hp]
      decide
    · exact convertRatio_le hp
    · injection hp with hp
      rw [← hp]
      decide

/-- A byte that completes a frame: the frame is decoded (R103, R159). -/
theorem execByte_completes {b : Byte} {s : State} (h : CompletesFrame b s) :
    exec (.byte b) s = completeFrame Config.hw (storedByte b s) := by
  obtain ⟨hw, hc, hs⟩ := h
  have h24 : s.cur.toNat = 23 := by rw [hc]; rfl
  show deliverByte Config.hw b s = _
  rw [deliverByte_of_lt _ _ _ (by omega)]
  unfold checkByte
  rw [storedByte_buf, h24, valid_stored_last _ _ hw, if_pos (by simpa using hs), if_pos rfl]

/-- The overflow test of `commit` on numbers (R186). -/
theorem commitOverflows_iff (r : DecodeRecord) (s : State) :
    commitOverflows r s = true ↔ CountWouldWrap r s := by
  have hmax : ∀ c : Count, c = BitVec.allOnes 32 ↔ c.toNat = 2 ^ 32 - 1 := fun c =>
    ⟨fun h => by rw [h]; rfl, fun h => BitVec.eq_of_toNat_eq (h.trans rfl)⟩
  unfold commitOverflows CountWouldWrap
  simp only [Bool.or_eq_true, Bool.and_eq_true, beq_iff_eq, hmax, or_assoc]

/-- Every instruction that carries a stream byte delivers it, for any parameters. -/
theorem execWith_of_streamByte {i : Instr} {b : Byte} (c : Params) (h : i.streamByte = some b) (s : State) :
    execWith c i s = deliverByte c b s := by
  cases i <;> simp only [Instr.streamByte, Option.some.injEq, reduceCtorEq] at h <;> subst h <;> rfl

/-- What completing a frame can do in the proof model (R238): stop on a zero divisor or a count at its bound,
else what the hardware does. -/
theorem completeFrame_proofModel (s : State) :
    completeFrame Config.proofModel s =
      match decodeFrame Config.hw s.buf with
      | .zeroCycle w => .fault (.zeroCycle w)
      | .ok r => if commitOverflows r s then .refused .countOverflow else completeFrame Config.hw s
      | _ => completeFrame Config.hw s := by
  have hd : decodeFrame Config.proofModel s.buf = decodeFrame Config.hw s.buf := rfl
  unfold completeFrame
  rw [hd]
  cases decodeFrame Config.hw s.buf <;> rfl

end Sys2Proof.Machine
end

