-- ==== Sys2Proof/Laws/PerInstr.lean ====
section
/-!
SUPPORT. Facts about every instruction as syntax, one lemma per constructor.
-/

namespace Sys2Proof.Laws

/-- The byte a frame-byte row encodes to is the byte it delivers, and only frame-byte rows and BYTE deliver one
(R82, R85 to R88). -/
def CarriedByte.Statement (i : Instr) : Prop :=
  (∀ pos b, encode i = .frame pos b → i.streamByte = some b) ∧
    (i.streamByte = none → ∃ w, encode i = .cmd w)

theorem CarriedByte.nop : CarriedByte.Statement .nop := ⟨nofun, fun _ => ⟨_, rfl⟩⟩
theorem CarriedByte.poll (now : Time) : CarriedByte.Statement (.poll now) := ⟨nofun, fun _ => ⟨_, rfl⟩⟩
theorem CarriedByte.byte (b : Byte) : CarriedByte.Statement (.byte b) := ⟨nofun, nofun⟩
theorem CarriedByte.publish : CarriedByte.Statement .publish := ⟨nofun, fun _ => ⟨_, rfl⟩⟩
theorem CarriedByte.reserved47 (op : BitVec 2) : CarriedByte.Statement (.reserved47 op) :=
  ⟨nofun, fun _ => ⟨_, rfl⟩⟩
theorem CarriedByte.reserved8F (op : BitVec 3) : CarriedByte.Statement (.reserved8F op) :=
  ⟨nofun, fun _ => ⟨_, rfl⟩⟩
theorem CarriedByte.hdr1Primary : CarriedByte.Statement .hdr1Primary := by
  refine ⟨fun pos b h => ?_, nofun⟩
  cases h
  rfl
theorem CarriedByte.hdr1Uncal : CarriedByte.Statement .hdr1Uncal := by
  refine ⟨fun pos b h => ?_, nofun⟩
  cases h
  rfl
theorem CarriedByte.hdr1StatusOk (pcer : Bool) : CarriedByte.Statement (.hdr1StatusOk pcer) := by
  refine ⟨fun pos b h => ?_, nofun⟩
  cases h
  rfl
theorem CarriedByte.hdr1StatusAbort (status : BitVec 4) :
    CarriedByte.Statement (.hdr1StatusAbort status) := by
  refine ⟨fun pos b h => ?_, nofun⟩
  cases h
  rfl
theorem CarriedByte.hdr1Reject (h1 : Byte) : CarriedByte.Statement (.hdr1Reject h1) := by
  refine ⟨fun pos b h => ?_, nofun⟩
  cases h
  rfl
theorem CarriedByte.hdr2 : CarriedByte.Statement .hdr2 := by
  refine ⟨fun pos b h => ?_, nofun⟩
  cases h
  rfl
theorem CarriedByte.adj (ignored7 hv hi hp : Bool) (ignored30 : BitVec 4) :
    CarriedByte.Statement (.adj ignored7 hv hi hp ignored30) := by
  refine ⟨fun pos b h => ?_, nofun⟩
  cases h
  rfl

end Sys2Proof.Laws
end

