-- ==== Sys2Proof/Tests/Slice0.lean ====
section
/-!
SUPPORT. The model's own tests. Every expected value is from spec/30_encoding.md or spec/95_test_vectors.md; the
identifiers (ENC, PO, SY, DE, EN, PU, SRC) are its vectors. The last part gives a witness for the hypotheses of
each statement of Certificates/Slice0/Obligations.lean.
-/

namespace Sys2Proof.Tests

open Sys2Proof Sys2Proof.Machine

/-! ### WellFormed refuses ill-formed terms -/

theorem test_wf_refuses_abort_without_abort_bit : (Instr.hdr1StatusAbort 0x2#4).wf = false := by decide
theorem test_wf_refuses_reject_of_primary : (Instr.hdr1Reject 0x55#8).wf = false := by decide
theorem test_wf_refuses_reject_of_sentinel : (Instr.hdr1Reject 0xAA#8).wf = false := by decide
theorem test_wf_refuses_reject_of_status : (Instr.hdr1Reject 0xF5#8).wf = false := by decide

/-! ### Words written out from the spec's encodings -/

/-- ENC-1, ENC-2. -/
theorem test_decode_nop : decodeCmd 0x000000000#36 = .nop ∧ decodeCmd 0x0DEADBEEF#36 = .nop := by decide
/-- ENC-3. -/
theorem test_decode_poll :
    decodeCmd 0x1000003E8#36 = .poll 1000#32 ∧ decodeCmd 0x1FFFFFFFF#36 = .poll 0xFFFFFFFF#32 := by decide
/-- ENC-4, ENC-5. -/
theorem test_decode_byte :
    decodeCmd 0x200000055#36 = .byte 0x55#8 ∧ decodeCmd 0x2ABCDEF55#36 = .byte 0x55#8 := by decide
/-- ENC-6. -/
theorem test_decode_publish : decodeCmd 0x300000000#36 = .publish ∧ decodeCmd 0x3FFFFFFFF#36 = .publish := by
  decide
/-- ENC-7, and the last OP of the row. -/
theorem test_decode_reserved47 :
    decodeCmd 0x400000000#36 = .reserved47 0#2 ∧ decodeCmd 0x700000000#36 = .reserved47 3#2 := by decide
/-- ENC-8, and the first OP of the row. -/
theorem test_decode_reserved8F :
    decodeCmd 0xF12345678#36 = .reserved8F 7#3 ∧ decodeCmd 0x800000000#36 = .reserved8F 0#3 := by decide
theorem test_decode_hdr1Primary : decode (.frame .byte0 0b01010101#8) = .ok .hdr1Primary := by decide
theorem test_decode_hdr1Uncal : decode (.frame .byte0 0b10101010#8) = .ok .hdr1Uncal := by decide
theorem test_decode_hdr1StatusOk :
    decode (.frame .byte0 0b11110000#8) = .ok (.hdr1StatusOk false) ∧
      decode (.frame .byte0 0b11110010#8) = .ok (.hdr1StatusOk true) := by decide
theorem test_decode_hdr1StatusAbort :
    decode (.frame .byte0 0b11110001#8) = .ok (.hdr1StatusAbort 1#4) ∧
      decode (.frame .byte0 0b11111010#8) = .ok (.hdr1StatusAbort 10#4) := by decide
theorem test_decode_hdr1Reject :
    decode (.frame .byte0 0x5A#8) = .ok (.hdr1Reject 0x5A#8) ∧
      decode (.frame .byte0 0xEF#8) = .ok (.hdr1Reject 0xEF#8) := by decide
theorem test_decode_hdr2 :
    decode (.frame .byte1 0b01011010#8) = .ok .hdr2 ∧ decode (.frame .byte1 0xA5#8) = .error .notHeader2 := by
  decide
theorem test_decode_adj :
    decode (.frame .byte20 0b01100000#8) = .ok (.adj false true true false 0#4) ∧
      decode (.frame .byte20 0b10011111#8) = .ok (.adj true false false true 15#4) := by decide

/-- The host's numbering: the rows' words as the table writes them, and HDR2's mask before HDR1_REJECT's. -/
theorem test_decodeTableWord :
    decodeTableWord 40 0x1000003E8 = some (.poll 1000#32) ∧ decodeTableWord 8 0x55 = some .hdr1Primary ∧
      decodeTableWord 8 0x5A = some .hdr2 ∧ decodeTableWord 8 0x12 = some (.hdr1Reject 0x12#8) ∧
      decodeTableWord 40 0x1000000000 = none := by decide

/-- The line `POLL 0x3E8 ; gap` of a trace (R76). -/
theorem test_readLine_poll : readLine ['P', 'O', 'L', 'L', ' ', '0', 'x', '3', 'E', '8', ' ', ';', 'g'] =
    some [.poll 1000] := by decide
/-- `BYTE 256` is out of range and `FRAME` has exactly 24 operands (R76, R77). -/
theorem test_expand_refuses_out_of_range :
    (Stmt.byte 256).expand = none ∧ (Stmt.frame [1, 2]).expand = none ∧ (Stmt.poll (2 ^ 32)).expand = none := by
  decide

/-! ### Small states -/

/-- The next state, if there is one. -/
def nextOf : Outcome → Option State
  | .next t => some t
  | _ => none

/-- The response of the next state. -/
def rspOf (o : Outcome) : Option Response := (nextOf o).bind fun t => t.rsp

/-- A state whose buffer holds these bytes from position 0, the cursor after them, `last_t` 1000. -/
def midFrame (bs : List Byte) : State :=
  { State.reset with buf := bufferOf bs, cur := BitVec.ofNat 5 bs.length, lastT := 1000#32 }

/-- `F_FULL` up to the checksum, with this header 1, voltage cycle, current cycle, power cycle and adjustment
byte (low bytes of the cycles only: the high bytes are 0 in the frames used). -/
def fullBody (h1 : Byte) (vcyc ccyc pcyc : Byte × Byte × Byte) (adj : Byte) : List Byte :=
  [h1, 0x5A, 0x0F, 0x42, 0x40, vcyc.1, vcyc.2.1, vcyc.2.2, 0x03, 0x0D, 0x40, ccyc.1, ccyc.2.1, ccyc.2.2,
   0x4C, 0x4B, 0x40, pcyc.1, pcyc.2.1, pcyc.2.2, adj, 0x00, 0x64]

/-- `F_FULL[h1=X][adj=Y]` before its checksum byte. -/
def fFull (h1 adj : Byte) : State :=
  midFrame (fullBody h1 (0x00, 0x11, 0xC1) (0x06, 0x1A, 0x80) (0x00, 0xB1, 0x8E) adj)

/-- `F_FULL`'s 24 bytes. -/
def fFullBytes : List Byte :=
  fullBody 0x55 (0x00, 0x11, 0xC1) (0x06, 0x1A, 0x80) (0x00, 0xB1, 0x8E) 0x70 ++ [0x3D]

/-! ### One step of each instruction -/

/-- ENC-1. -/
theorem test_nop : nextOf (exec .nop (midFrame [0x55])) =
    some { midFrame [0x55] with rsp := some { evt := .none } } := by decide
/-- PO-1, PO-2, PO-6. -/
theorem test_poll_boundary :
    (rspOf (exec (.poll 1499#32) (midFrame [0x55]))).map (fun r => r.evt) = some .none ∧
    (rspOf (exec (.poll 1500#32) (midFrame [0x55]))).map (fun r => r.evt) = some .timeout ∧
    (nextOf (exec (.poll 0xF4#32) { midFrame [0x55] with lastT := 0xFFFFFF00#32 })).map (fun t => t.cur) =
      some 0#5 := by decide
/-- PO-3, PO-4: the other reading of the timeout. -/
theorem test_poll_exclusive :
    (pollCommand { Config.hw with timeoutInclusive := false } 1500#32 (midFrame [0x55])).cur = 1#5 ∧
    (pollCommand { Config.hw with timeoutInclusive := false } 1501#32 (midFrame [0x55])).cur = 0#5 := by
  decide
/-- SRC-CS: `F_C` with 0xA4 at position 23. -/
theorem test_byte_checksum_reject :
    (rspOf (exec (.byte 0x3E#8) (fFull 0x55 0x70))).map (fun r => (r.evt, r.pos, r.warn)) =
      some (.rejectChecksum, 23#5, true) := by decide +kernel
/-- DE-1, row 0x70: all three quantities. -/
theorem test_byte_frame_ok :
    (rspOf (exec (.byte 0x3D#8) (fFull 0x55 0x70))).map (fun r => (r.evt, r.drV, r.drI, r.drP)) =
      some (.frameOk, 0x435C05A2#32, 0x3F000000#32, 0x42DC00AD#32) := by decide +kernel
/-- PU-2, PU-5: means and cleared pairs. -/
theorem test_publish_means :
    (rspOf (exec .publish { State.reset with accV := ⟨0x43DC8000#32, 2#32⟩, accI := ⟨0x3F800000#32, 3#32⟩ })).map
      (fun r => (r.pubVOk, r.pubV, r.pubI, r.pubPOk, r.pubEOk)) =
      some (true, 0x435C8000#32, 0x3EAAAAAB#32, false, false) := by decide +kernel
/-- PU-6: the energy drain is a total and clears only the pending count. -/
theorem test_publish_energy :
    (nextOf (exec .publish { State.reset with energy := ⟨true, 7#16, 0x3D8E38E4#32, 2#32⟩ })).map
      (fun t => (t.energy, t.rsp.map fun r => (r.pubEOk, r.pubE))) =
      some (⟨true, 7#16, 0x3D8E38E4#32, 0#32⟩, some (true, 0x3D8E38E4#32)) := by decide
/-- ENC-7. -/
theorem test_reserved47 :
    nextOf (exec (.reserved47 0#2) { State.reset with warn := true }) =
      some { State.reset with warn := true, rsp := some { evt := .illegalCmd, warn := true } } := by decide
/-- ENC-8. -/
theorem test_reserved8F :
    nextOf (exec (.reserved8F 7#3) State.reset) =
      some { State.reset with rsp := some { evt := .illegalCmd } } := by decide
/-- SY-1. -/
theorem test_hdr1Primary :
    (nextOf (exec .hdr1Primary State.reset)).map (fun t => (t.cur, t.buf)) = some (1#5, [(0, 0x55#8)]) := by
  decide
/-- SY-5, and SRC-A2: the frame is accepted and then discarded. -/
theorem test_hdr1Uncal :
    (rspOf (exec .hdr1Uncal State.reset)).map (fun r => r.evt) = some .byteAccepted ∧
      (rspOf (exec (.byte 0x3D#8) (fFull 0xAA 0x70))).map (fun r => r.evt) = some .frameUncalibrated := by
  decide +kernel
/-- SRC-B: power is forced to zero. -/
theorem test_hdr1StatusOk :
    (rspOf (exec (.hdr1StatusOk true) State.reset)).map (fun r => r.evt) = some .byteAccepted ∧
      (rspOf (exec (.byte 0x3D#8) (fFull 0xF2 0x70))).map (fun r => (r.evt, r.drPcer, r.drP, r.drI, r.drV)) =
        some (.frameOk, true, 0#32, 0#32, 0x435C05A2#32) := by decide +kernel
/-- SRC-B': accepted, then discarded with info 8. -/
theorem test_hdr1StatusAbort :
    (rspOf (exec (.hdr1StatusAbort 8#4) State.reset)).map (fun r => r.evt) = some .byteAccepted ∧
      (rspOf (exec (.byte 0x3D#8) (fFull 0xF8 0x70))).map (fun r => (r.evt, r.info)) =
        some (.frameAbortStatus, 8#4) := by decide +kernel
/-- SRC-A1. -/
theorem test_hdr1Reject :
    (rspOf (exec (.hdr1Reject 0x5A#8) State.reset)).map (fun r => (r.evt, r.pos, r.warn)) =
      some (.rejectHdr1, 0#5, true) := by decide
/-- SY-3: accepted at position 1, rejected at position 0. -/
theorem test_hdr2 :
    (nextOf (exec .hdr2 (midFrame [0xF0]))).map (fun t => t.cur) = some 2#5 ∧
      (rspOf (exec .hdr2 State.reset)).map (fun r => r.evt) = some .rejectHdr1 := by decide
/-- R88: the byte of the row is stored whole, ignored bits included. -/
theorem test_adj :
    (nextOf (exec (.adj true false false true 15#4) (midFrame (fFullBytes.take 20)))).map
      (fun t => (t.cur, t.buf.read 20)) = some (21#5, 0x9F#8) := by decide

/-- DE-1, row 0x60: the extra power sample, and no energy step. -/
theorem test_extra_power_sample :
    (nextOf (exec (.byte 0x2D#8) (fFull 0x55 0x60))).map
      (fun t => (t.accV.cnt, t.accI, t.accP, t.energy.pending)) =
      some (1#32, ⟨0#32, 1#32⟩, ⟨0#32, 1#32⟩, 0#32) := by decide +kernel

/-- EN-4, EN-7: the wrap, and an absorbed increment. -/
theorem test_energy_step :
    energyStep 5000000#24 5#16 ⟨true, 65530#16, 0#32, 0#32⟩ = ⟨true, 5#16, 0x3C7A4FA5#32, 1#32⟩ ∧
      energyStep 5000000#24 150#16 ⟨true, 100#16, 0x4B800000#32, 0#32⟩ =
        ⟨true, 150#16, 0x4B800000#32, 1#32⟩ := by decide +kernel
/-- DE-4, PU-7: exact, smallest, and a count that rounds. -/
theorem test_numbers :
    numOfRatio 16777215 1 = 0x4B7FFFFF#32 ∧ numOfRatio 1 16777215 = 0x33800001#32 ∧
      numOfNat 16777217 = 0x4B800000#32 ∧ numAdd 0x42DC00AD#32 0x42DC00AD#32 = 0x435C00AD#32 := by
  decide +kernel

/-! ### Witnesses for the statements' hypotheses -/

/-- A frame whose voltage cycle is zero, all else `F_FULL` (DE-5). -/
def fZeroV : State := midFrame (fullBody 0x55 (0, 0, 0) (0x06, 0x1A, 0x80) (0x00, 0xB1, 0x8E) 0x70)

/-- The same for the power cycle, adjustment byte 0x10 (DE-5). -/
def fZeroP : State := midFrame (fullBody 0x55 (0x00, 0x11, 0xC1) (0x06, 0x1A, 0x80) (0, 0, 0) 0x10)

/-- The same for the current cycle, adjustment byte 0x30 (DE-5). -/
def fZeroI : State := midFrame (fullBody 0x55 (0x00, 0x11, 0xC1) (0, 0, 0) (0x00, 0xB1, 0x8E) 0x30)

theorem witness_DecodeOfEncodedIsTheInstruction :
    (Instr.hdr1StatusAbort 1#4).wf = true ∧ (Instr.hdr1StatusAbort 15#4).wf = true ∧
      (Instr.hdr1Reject 0#8).wf = true ∧ (Instr.hdr1Reject 0xEF#8).wf = true ∧ Instr.hdr2.wf = true := by decide

theorem witness_CommandWordsDecodeByOpAlone :
    (4 ≤ (4#4).toNat ∧ (4#4).toNat < 8) ∧ (4 ≤ (7#4).toNat ∧ (7#4).toNat < 8) ∧ 8 ≤ (8#4).toNat ∧
      8 ≤ (15#4).toNat := by decide

theorem witness_IgnoredBitsDoNotChangeTheCommand :
    (2#4 ≠ 1#4 ∧ (0xABCDEF55#32).toNat % 256 = (0x55#32).toNat % 256) ∧ (0#4 ≠ 1#4 ∧ 0#4 ≠ 2#4) := by decide

theorem witness_StepRunsTheDecodedCommand :
    decodeCmd 0x200000055#36 = .byte 0x55#8 ∧
      (State.reset.withFetchWord 40 0x200000055).inputs = .cmd 0x200000055#36 :: [] ∧
      State.reset.inputs = [] := by decide

theorem witness_StreamByteRunsItsFrameRow :
    frameRow 0 0x00#8 = some (.hdr1Reject 0x00#8) ∧ frameRow 1 0x5A#8 = some .hdr2 ∧
      frameRow 20 0xFF#8 = some (.adj true true true true 15#4) := by decide

theorem witness_ResetAssignsTheRegisters :
    ({ fFull 0x55 0x70 with inputs := [.rst (some 0x20000003D#36)] } : State).inputs =
        .rst (some 0x20000003D#36) :: [] ∧
      ({ State.reset with inputs := [.rst none] } : State).inputs = .rst none :: [] := by decide

theorem witness_PseudoInstructionsExpand :
    2 ^ 32 - 1 < 2 ^ 32 ∧ (∀ b ∈ List.replicate 24 255, b < 256) ∧ (List.replicate 24 255).length = 24 ∧
      (∀ b ∈ [0], b < 256) ∧ [0].length ≠ 24 ∧ [0] ≠ [] := by decide

theorem witness_ReservedCommandsAnswerIllegal :
    ((∃ op, Instr.reserved47 3#2 = .reserved47 op) ∨ ∃ op, Instr.reserved47 3#2 = .reserved8F op) ∧
      ((∃ op, Instr.reserved8F 0#3 = .reserved47 op) ∨ ∃ op, Instr.reserved8F 0#3 = .reserved8F op) :=
  ⟨.inl ⟨_, rfl⟩, .inr ⟨_, rfl⟩⟩

theorem witness_PollIsIdempotentPublishIsNot :
    (∃ t, exec (.poll 0xFFFFFFFF#32) State.reset = .next t ∧ t.invNow = 0xFFFFFFFF#32) ∧
      (∃ t, exec .publish { State.reset with energy := ⟨true, 7#16, 0x3D8E38E4#32, 2#32⟩ } = .next t ∧
        t.energy.pending = 0#32) ∧
      (⟨true, 7#16, 0x3D8E38E4#32, 2#32⟩ : Energy).pending ≠ 0#32 ∧
      ∃ t, exec .nop State.reset = .next t ∧ t.warn = false :=
  ⟨⟨_, rfl, rfl⟩, ⟨_, rfl, rfl⟩, by decide, ⟨_, rfl, rfl⟩⟩

/-- The hypotheses of HeaderOneDecidesAcceptance and HeaderOneRowsAtPositionZero. -/
theorem witness_HeaderOneDecidesAcceptance :
    State.reset.buf.wf = true ∧ State.reset.cur = 0#5 ∧ (Instr.hdr1StatusAbort 1#4).wf = true ∧
      (Instr.hdr1Reject 0xEF#8).wf = true ∧ 0xF0 ≤ (0xF0#8).toNat ∧ ¬0xF0 ≤ (0xEF#8).toNat := by decide

/-- The hypotheses of HeaderTwoDecidesAcceptance and HeaderTwoAndAdjustmentRows. -/
theorem witness_HeaderTwoDecidesAcceptance :
    (midFrame [0x55]).buf.wf = true ∧ (midFrame [0x55]).cur = 1#5 ∧
      (midFrame (fFullBytes.take 20)).cur = 20#5 := by decide

theorem witness_BodyBytesAreAlwaysAccepted :
    2 ≤ (midFrame [0x55, 0x5A]).cur.toNat ∧ (midFrame [0x55, 0x5A]).cur.toNat ≤ 22 ∧
      2 ≤ (midFrame (fFullBytes.take 22)).cur.toNat ∧ (midFrame (fFullBytes.take 22)).cur.toNat ≤ 22 := by
  decide

theorem witness_ChecksumDecidesTheFrame :
    (fFull 0x55 0x70).buf.wf = true ∧ (fFull 0x55 0x70).cur = 23#5 ∧
      bodyTotal (fFull 0x55 0x70).buf % 256 = (0x3D#8).toNat ∧
      bodyTotal (fFull 0x55 0x70).buf % 256 ≠ (0x3E#8).toNat := by decide +kernel

/-- All three positions, and both uses of the state after the rejection. -/
theorem witness_RejectedByteRestartsAtHeaderOne :
    (State.reset.cur.toNat < 24 ∧ valid Config.hw (State.reset.buf.write 0 0x5A#8) 0 = false) ∧
      (valid Config.hw ((midFrame [0x55]).buf.write 1 0x00#8) 1 = false) ∧
      ((fFull 0x55 0x70).cur.toNat < 24 ∧ valid Config.hw ((fFull 0x55 0x70).buf.write 23 0x3E#8) 23 = false) ∧
      Instr.nop.streamByte = none ∧
      ((nextOf (exec (.byte 0x5A#8) State.reset)).map fun t =>
        ((nextOf (exec .nop t)).isSome, (rspOf (exec (.byte 0x55#8) t)).isSome)) = some (true, true) := by
  decide +kernel

/-- Every line of the table is reached: the states, the bytes, and an answer. -/
theorem witness_CursorFollowsTheTransitionTable :
    (rspOf (exec (.poll 1500#32) (midFrame [0x55]))).isSome ∧
      500 ≤ (1500#32 - (midFrame [0x55]).lastT).toNat ∧ (1499#32 - (midFrame [0x55]).lastT).toNat < 500 ∧
      (rspOf (exec (.byte 0xF0#8) State.reset)).isSome ∧ (rspOf (exec (.byte 0xEF#8) State.reset)).isSome ∧
      (rspOf (exec .hdr2 (midFrame [0x55]))).isSome ∧ (rspOf (exec (.byte 0#8) (midFrame [0x55]))).isSome ∧
      (rspOf (exec (.byte 0#8) (midFrame [0x55, 0x5A]))).isSome ∧
      (rspOf (exec (.byte 0#8) (midFrame (fFullBytes.take 22)))).isSome ∧
      (rspOf (exec (.byte 0x3D#8) (fFull 0x55 0x70))).isSome ∧
      (rspOf (exec (.byte 0x3E#8) (fFull 0x55 0x70))).isSome ∧
      (rspOf (exec .nop State.reset)).isSome ∧ (rspOf (exec .publish State.reset)).isSome ∧
      (rspOf (exec (.reserved47 0#2) State.reset)).isSome ∧
      (rspOf (exec (.reserved8F 0#3) State.reset)).isSome ∧ State.reset.buf.wf = true ∧
      (midFrame [0x55]).buf.wf = true := by decide +kernel

/-- The hypotheses of InvocationsStampTheirFirstByte, OnlyTheByteAtTheCursorIsWritten,
RegistersChangeOnlyByTheirWriters, WarnFollowsRejectionAndCompletion, ResponsesCarryWarnAndDefaults and
PulseBaselineIsOnlyLostByReset: an answer with a response, of a command and of a stream byte, a committed frame
among them. -/
theorem witness_NextStatesWithResponses :
    (∃ t r, exec (.poll 0#32) State.reset = .next t ∧ t.rsp = some r) ∧
      (∃ t r, exec (.byte 0x55#8) State.reset = .next t ∧ t.rsp = some r ∧
        (Instr.byte 0x55#8).streamByte = some 0x55#8) ∧
      (rspOf (exec (.byte 0x3D#8) { fFull 0x55 0x70 with energy := ⟨true, 0#16, 0#32, 0#32⟩ })).map
        (fun r => (r.evt, r.drHp)) = some (.frameOk, true) :=
  ⟨⟨_, _, rfl, rfl⟩, ⟨_, _, rfl, rfl, rfl⟩, by decide +kernel⟩

theorem witness_EveryCommandCompletes :
    State.reset.cur.toNat < 24 ∧ (fFull 0x55 0x70).cur.toNat < 24 ∧ (fFull 0x55 0x70).cur.toNat = 23 := by
  decide

theorem witness_ChecksumDetectsOneByteAndNotASwap :
    (bufferOf fFullBytes).wf = true ∧ checksumOk (bufferOf fFullBytes) = true ∧
      0x0E#8 ≠ (bufferOf fFullBytes).read 2 ∧ 0x3E#8 ≠ (bufferOf fFullBytes).read 23 := by decide

/-- The hypotheses of UncalibratedFrameIsDiscarded, StatusHeaderAbortsOrSetsPcer (both clauses and their
boundary headers), DecodeOutcomeDecidesTheFrame and PresencePatternDecidesTheSamples. -/
theorem witness_CompletesFrame :
    (CompletesFrame 0x3D#8 (fFull 0xAA 0x70) ∧ (fFull 0xAA 0x70).buf.read 0 = 0xAA#8) ∧
      (CompletesFrame 0x3D#8 (fFull 0xF1 0x70) ∧ (0xF1#8).toNat &&& 0x0D ≠ 0) ∧
      (CompletesFrame 0x3D#8 (fFull 0xFF 0x70) ∧ (0xFF#8).toNat &&& 0x0D ≠ 0) ∧
      (CompletesFrame 0x3D#8 (fFull 0xF0 0x70) ∧ (0xF0#8).toNat &&& 0x0D = 0) ∧
      (CompletesFrame 0x3D#8 (fFull 0xF2 0x70) ∧ (0xF2#8).toNat &&& 0x0D = 0) ∧
      CompletesFrame 0x3D#8 (fFull 0x55 0x70) ∧
      CompletesFrame 0x6B#8 fZeroV ∧ CompletesFrame 0x9E#8 fZeroP ∧ CompletesFrame 0x5D#8 fZeroI := by
  unfold CompletesFrame
  decide +kernel

/-- Each outcome of DecodeOutcomeDecidesTheFrame and of ProofModelIsTheHardwareButForThreeStops is taken by a
frame (SRC-A2, SRC-B', DE-5). -/
theorem witness_DecodeOutcomes :
    decodeFrame Config.hw ((fFull 0xAA 0x70).buf.write 23 0x3D#8) = .uncalibrated ∧
      decodeFrame Config.hw ((fFull 0xF8 0x70).buf.write 23 0x3D#8) = .abortStatus 8#4 ∧
      decodeFrame Config.hw (fZeroV.buf.write 23 0x6B#8) = .zeroCycle .voltage ∧
      decodeFrame Config.hw (fZeroP.buf.write 23 0x9E#8) = .zeroCycle .power ∧
      decodeFrame Config.hw (fZeroI.buf.write 23 0x5D#8) = .zeroCycle .current ∧
      decodeFrame Config.hw ((fFull 0xF2 0x70).buf.write 23 0x3D#8) = .ok
        { hv := true, v := 0x435C05A2#32, hi := true, i := 0#32, hp := true, p := 0#32, p0 := false,
          pcer := true, pcoef := 5000000#24, cf := 100#16 } := by decide +kernel

/-- The headers and the four clauses of DecodeConvertsPresentQuantities, in the order of their tests, and the
forms of its last three lines. -/
theorem witness_DecodeConvertsPresentQuantities :
    (fFull 0x55 0x70).buf.read 0 = 0x55#8 ∧ (fFull 0xF0 0x70).buf.read 0 = 0xF0#8 ∧
      (fFull 0xF2 0x70).buf.read 0 = 0xF2#8 ∧
      ((fZeroV.buf.read 20).getLsbD 6 = true ∧ (be24 fZeroV.buf 5).toNat = 0) ∧
      ((fZeroP.buf.read 20).getLsbD 6 = false ∧ (fZeroP.buf.read 20).getLsbD 4 = true ∧
        (be24 fZeroP.buf 17).toNat = 0) ∧
      ((fZeroI.buf.read 20).getLsbD 5 = true ∧ (fZeroI.buf.read 20).getLsbD 4 = true ∧
        (be24 fZeroI.buf 17).toNat ≠ 0 ∧ (be24 fZeroI.buf 14).toNat ≠ 0 ∧ (be24 fZeroI.buf 11).toNat = 0) ∧
      ((be24 (fFull 0x55 0x70).buf 5).toNat ≠ 0 ∧ (be24 (fFull 0x55 0x70).buf 17).toNat ≠ 0 ∧
        (be24 (fFull 0x55 0x70).buf 11).toNat ≠ 0) := by decide

theorem witness_PresencePatternDecidesTheSamples :
    CompletesFrame 0x2D#8 (fFull 0x55 0x60) ∧
      (rspOf (exec (.byte 0x2D#8) (fFull 0x55 0x60))).map (fun r => (r.evt, r.drHv, r.drHi, r.drHp)) =
        some (.frameOk, true, true, false) ∧
      CompletesFrame 0x3D#8 (fFull 0xF2 0x70) ∧
      (rspOf (exec (.byte 0x3D#8) (fFull 0xF2 0x70))).map (fun r => (r.evt, r.drHi, r.drHp, r.drP)) =
        some (.frameOk, true, true, 0#32) := by
  unfold CompletesFrame
  decide +kernel

/-- A frame that decodes to a record: the hypothesis of ConvertedQuantitiesAreNotNegative. -/
theorem witness_ConvertedQuantitiesAreNotNegative :
    ∃ r, decodeFrame Config.hw ((fFull 0xF2 0x70).buf.write 23 0x3D#8) = .ok r ∧ r.v = 0x435C05A2#32 :=
  ⟨_, witness_DecodeOutcomes.2.2.2.2.2, rfl⟩

/-- The largest and the smallest quotient of non-zero fields. -/
theorem witness_NonzeroQuotientsStayNonzero :
    0xFFFFFF#24 ≠ 0#24 ∧ 1#24 ≠ 0#24 ∧ numOfRatio (1#24).toNat (0xFFFFFF#24).toNat = 0x33800001#32 := by
  decide +kernel

/-- The invariant holds in a state inside a frame that has accumulated. -/
theorem witness_Inv :
    State.Inv { fFull 0x55 0x70 with accV := ⟨0x58000000#32, 1#32⟩, energy := ⟨true, 0#16, 0x50800000#32, 1#32⟩ } where
  bufWf := by decide
  curInFrame := by decide
  headers := by decide
  sumV := by decide
  sumI := by decide
  sumP := by decide
  total := by decide

/-- The hypotheses of EnergyTotalNeverDecreases and of HardwareNeverFaultsAndKeepsTheInvariant hold together
with a next state. -/
theorem witness_EnergyTotalNeverDecreases :
    State.Inv { State.reset with energy := ⟨true, 7#16, 0x3D8E38E4#32, 2#32⟩ } ∧
      ∃ t, exec .publish { State.reset with energy := ⟨true, 7#16, 0x3D8E38E4#32, 2#32⟩ } = .next t ∧
        t.energy.total = 0x3D8E38E4#32 :=
  ⟨⟨by decide, by decide, by decide, by decide, by decide, by decide, by decide⟩, ⟨_, rfl, rfl⟩⟩

/-- Both the largest quotient that does not overflow and a tie meet the hypothesis of RoundingIsNearestTiesToEven. -/
theorem witness_RoundingIsNearestTiesToEven :
    0 < 2 ∧ ((2 ^ 24 * 2 + 1 : ℕ) : ℚ) / (2 : ℕ) < (2 ^ 25 - 1) * 2 ^ 103 ∧
      ((2 ^ 128 - 2 ^ 104 : ℕ) : ℚ) / (1 : ℕ) < (2 ^ 25 - 1) * 2 ^ 103 ∧ (0x7F7FFFFF#32).toNat < infinityBits := by
  norm_num [infinityBits]

theorem witness_ArithmeticRoundsTheExactResultOnce :
    2 ^ 24 - 1 < 2 ^ 24 ∧ (0x7F7FFFFF#32).toNat < infinityBits ∧ (1#32).toNat < infinityBits ∧ 1#32 ≠ 0#32 := by
  decide

theorem witness_CountsWrapAndAWrappedCountDeliversNothing :
    (⟨0x3F800000#32, 0xFFFFFFFF#32⟩ : Acc).cnt.toNat = 2 ^ 32 - 1 := by decide

/-- The relation of the counts, at its bound, in states from which each clause's step goes on. -/
theorem witness_EnergyIsNeverDeliveredWithoutPower :
    ∃ s : State, s.energy.pending.toNat ≤ s.accP.cnt.toNat ∧ s.accP.cnt.toNat < 2 ^ 32 - 1 ∧
      (∃ t r, exec .publish s = .next t ∧ t.rsp = some r ∧ r.pubEOk = true) ∧
      (∃ t, step s = .next t) ∧ ∃ t, stepWith Config.proofModel s = .next t :=
  ⟨{ State.reset with accP := ⟨0x42DC00AD#32, 1#32⟩, energy := ⟨true, 100#16, 0#32, 1#32⟩ },
    by decide, by decide, ⟨_, _, rfl, rfl, rfl⟩, ⟨_, rfl⟩, ⟨_, rfl⟩⟩

/-- Two states that differ in the buffer's stale bytes and in the baseline. -/
theorem witness_ResetContentsAreNeverObservable :
    ∃ s t : State, s ≠ t ∧ s.buf.wf = true ∧ t.buf.wf = true ∧ s.cur.toNat < 24 ∧ s.Alike t :=
  ⟨State.reset, { State.reset with buf := [(3, 7#8)], energy := ⟨false, 9#16, 0#32, 0#32⟩ },
    by decide, by decide, by decide, by decide,
    ⟨fun k hk => absurd hk (Nat.not_lt_zero k), rfl, rfl, rfl, rfl, rfl, rfl, rfl, rfl, rfl,
      fun h => absurd h (by decide), rfl, rfl, rfl, rfl⟩⟩

/-- The proof model goes on where the hardware does: on a command, and on a frame that commits with every count
below its bound; and a count is at its bound in a frame that completes. -/
theorem witness_ProofModelIsTheHardwareButForThreeStops :
    (∃ t, stepWith Config.proofModel (State.reset.withFetchWord 40 0x1000001F4) = .next t ∧ t.inputs = []) ∧
      (State.reset.buf.wf = true ∧ ¬ProofModelStops (.poll 500#32) State.reset) ∧
      ((fFull 0xAA 0x70).buf.wf = true ∧ ¬ProofModelStops (.byte 0x3D#8) (fFull 0xAA 0x70)) ∧
      ((fFull 0xF2 0x70).buf.wf = true ∧ ¬ProofModelStops (.byte 0x3D#8) (fFull 0xF2 0x70)) ∧
      CompletesFrame 0x3D#8 { fFull 0xF2 0x70 with accI := ⟨0#32, 0xFFFFFFFF#32⟩ } ∧
      ({ fFull 0xF2 0x70 with accI := ⟨0#32, 0xFFFFFFFF#32⟩ } : State).accI.cnt.toNat = 2 ^ 32 - 1 := by
  have hcnt : ∀ r, ¬CountWouldWrap r (fFull 0xF2 0x70) := fun r => by
    simp [CountWouldWrap, fFull, midFrame, State.reset]
  refine ⟨⟨_, rfl, rfl⟩, ⟨by decide, ?_⟩, ⟨by decide, ?_⟩, ⟨by decide, ?_⟩, ?_⟩
  · simp [ProofModelStops, Instr.streamByte]
  · rintro (⟨op, h⟩ | ⟨op, h⟩ | ⟨b, hb, -, ⟨w, hw⟩ | ⟨r, hr, -⟩⟩)
    · cases h
    · cases h
    · cases hb
      rw [witness_DecodeOutcomes.1] at hw
      cases hw
    · cases hb
      rw [witness_DecodeOutcomes.1] at hr
      cases hr
  · rintro (⟨op, h⟩ | ⟨op, h⟩ | ⟨b, hb, -, ⟨w, hw⟩ | ⟨r, -, hr⟩⟩)
    · cases h
    · cases h
    · cases hb
      rw [witness_DecodeOutcomes.2.2.2.2.2] at hw
      cases hw
    · exact hcnt r hr
  · unfold CompletesFrame
    decide +kernel

/-- `F_FULL` delivered from reset, one more command waiting behind it. -/
theorem witness_DeliveredFrameIsDecoded :
    ∃ s : State, s.buf.wf = true ∧ s.cur = 0#5 ∧ fFullBytes.length = 24 ∧
      hdr1Ok Config.hw (fFullBytes.getD 0 0#8) = true ∧ fFullBytes.getD 1 0#8 = 0x5A#8 ∧
      bodyTotal (bufferOf fFullBytes) % 256 = (fFullBytes.getD 23 0#8).toNat ∧
      s.inputs = deliverInputs fFullBytes ++ [.cmd 0x300000000#36] :=
  ⟨{ State.reset with inputs := deliverInputs fFullBytes ++ [.cmd 0x300000000#36] }, by decide, by decide,
    by decide, by decide, by decide, by decide +kernel, rfl⟩

end Sys2Proof.Tests
end

section
/-!
PROOFS of the family 00_scope.md: rounding (R11, R12), a step's command (R3), the parameters (R7).
-/

namespace Sys2Proof.Machine

/-! ### The value of a finite non-negative pattern -/

/-- The value of a pattern is its worth in units of 2^-149 (R12). -/
theorem numValue_of_lt {x : Numeric} (h : x.toNat < infinityBits) :
    numValue x = (magUnits x.toNat : ℚ) / (unitsPerOne : ℚ) := by
  simp [numValue, numUnits_of_lt h]

theorem magUnits_pos {p : Nat} (h : 0 < p) : 0 < magUnits p :=
  Nat.zero_lt_of_lt (magUnits_strictMono h)

/-! ### Rounding takes the nearest pattern -/

/-- How far the worth of pattern `p` lies from `n / d`, in units of 2^-149 / `d`. -/
def distUnits (n d p : Nat) : Nat :=
  ((magUnits p * d : ℕ) - (n * unitsPerOne : ℕ) : ℤ).natAbs

/-- `distUnits` measures the distance of a pattern's value from the quotient. -/
theorem abs_numValue_sub {n d : Nat} (hd : 0 < d) {x : Numeric} (hx : x.toNat < infinityBits) :
    |numValue x - (n : ℚ) / d| = (distUnits n d x.toNat : ℚ) / ((unitsPerOne : ℚ) * d) := by
  have hU : (0 : ℚ) < (unitsPerOne : ℚ) := by positivity
  have hD : (0 : ℚ) < d := by exact_mod_cast hd
  rw [numValue_of_lt hx, div_sub_div _ _ hU.ne' hD.ne', abs_div, abs_of_pos (mul_pos hU hD), distUnits,
    Nat.cast_natAbs, Int.cast_abs, mul_comm (unitsPerOne : ℚ) n]
  push_cast
  rfl

/-- A finite result is the lower neighbour `P` of the quotient, at most half way up to the upper one, or it is
the upper one, at least half way up; it is even at half way. -/
theorem flMag_down_or_up (n : Nat) {d : Nat} (hd : 0 < d) (hfin : flMag n d < infinityBits) :
    ∃ P, magUnits P * d ≤ n * unitsPerOne ∧ n * unitsPerOne < magUnits (P + 1) * d ∧
      ((flMag n d = P ∧ 2 * (n * unitsPerOne) ≤ magUnits P * d + magUnits (P + 1) * d ∧
          (2 * (n * unitsPerOne) = magUnits P * d + magUnits (P + 1) * d → P % 2 = 0)) ∨
        (flMag n d = P + 1 ∧ magUnits P * d + magUnits (P + 1) * d ≤ 2 * (n * unitsPerOne) ∧
          (2 * (n * unitsPerOne) = magUnits P * d + magUnits (P + 1) * d → P % 2 = 1))) := by
  obtain ⟨P, hlo, hhi, he⟩ := flMag_bracket n hd
  refine ⟨P, hlo, hhi, ?_⟩
  rw [he] at hfin ⊢
  rw [min_eq_left_of_lt ((min_lt_iff.1 hfin).resolve_right (lt_irrefl _)), Nat.add_mul]
  clear he hfin
  generalize n * unitsPerOne = N at *
  split_ifs with hup
  · exact .inr ⟨rfl, by omega, by omega⟩
  · exact .inl ⟨rfl, by omega, by omega⟩

/-- No pattern's worth is nearer to the quotient than the result's: every other pattern lies at or beyond the
two neighbours. -/
theorem flMag_nearest {n d : Nat} (hd : 0 < d) (hfin : flMag n d < infinityBits) (q : Nat) :
    distUnits n d (flMag n d) ≤ distUnits n d q ∧
      (distUnits n d (flMag n d) = distUnits n d q → q = flMag n d ∨ flMag n d % 2 = 0) := by
  obtain ⟨P, hlo, hhi, hround⟩ := flMag_down_or_up n hd hfin
  have hbelow : q < P → magUnits q * d < magUnits P * d := fun h =>
    Nat.mul_lt_mul_of_pos_right (magUnits_strictMono h) hd
  have habove : P + 1 < q → magUnits (P + 1) * d < magUnits q * d := fun h =>
    Nat.mul_lt_mul_of_pos_right (magUnits_strictMono h) hd
  have hq : q < P ∨ q = P ∨ q = P + 1 ∨ P + 1 < q := by omega
  unfold distUnits
  clear hfin
  generalize n * unitsPerOne = N at *
  obtain ⟨hval, hhalf, htie⟩ | ⟨hval, hhalf, htie⟩ := hround <;> rw [hval]
  · obtain hq | rfl | rfl | hq := hq <;> omega
  · obtain hq | rfl | rfl | hq := hq <;> omega

/-- Below half a step beyond the largest finite value nothing rounds to infinity. -/
theorem flMag_lt_infinity {n d : Nat} (hd : 0 < d)
    (h : 2 * (n * unitsPerOne) < (magUnits (infinityBits - 1) + magUnits infinityBits) * d) :
    flMag n d < infinityBits := by
  rcases Nat.le_total (n * unitsPerOne) (magUnits (infinityBits - 1) * d) with hle | hge
  · exact lt_of_le_of_lt (flMag_le_of_le hd hle (Nat.sub_le _ _)) (by decide)
  · rw [flMag_absorb hd hge h (Nat.sub_le _ _)]
    decide

/-- The middle between the largest finite value and the next power of two, in units of 2^-150. -/
theorem magUnits_overflow :
    magUnits (infinityBits - 1) + magUnits infinityBits = (2 ^ 25 - 1) * 2 ^ 103 * 2 * unitsPerOne := by
  decide +kernel

/-- The overflow bound of R12 is that middle. -/
theorem flMag_finite {n d : Nat} (hd : 0 < d) (h : (n : ℚ) / d < (2 ^ 25 - 1) * 2 ^ 103) :
    flMag n d < infinityBits := by
  have hD : (0 : ℚ) < d := by exact_mod_cast hd
  rw [div_lt_iff₀ hD] at h
  have hn : n < (2 ^ 25 - 1) * 2 ^ 103 * d := by
    rw [← Nat.cast_lt (α := ℚ)]
    norm_num at h ⊢
    exact h
  refine flMag_lt_infinity hd ?_
  rw [magUnits_overflow]
  calc 2 * (n * unitsPerOne) < 2 * ((2 ^ 25 - 1) * 2 ^ 103 * d * unitsPerOne) := by gcongr
    _ = (2 ^ 25 - 1) * 2 ^ 103 * 2 * unitsPerOne * d := by ring

/-- Settles O45: the distances are compared in common units, where `flMag_nearest` decides. -/
theorem roundingIsNearestTiesToEven : Obligations.RoundingIsNearestTiesToEven := by
  intro n d hd hlt
  have hfin : (fl n d).toNat < infinityBits := by
    rw [fl_toNat]
    exact flMag_finite hd hlt
  refine ⟨hfin, fun y hy => ?_⟩
  have hscale : (0 : ℚ) < (unitsPerOne : ℚ) * d := by positivity
  rw [abs_numValue_sub hd hfin, abs_numValue_sub hd hy, div_le_div_iff_of_pos_right hscale,
    div_left_inj' hscale.ne', Nat.cast_le, Nat.cast_inj, BitVec.toNat_inj.symm, fl_toNat]
  exact flMag_nearest hd (flMag_finite hd hlt) y.toNat

/-! ### Operations round the exact result once -/

/-- An integer of at most 24 bits is the worth of a finite pattern: shift its leading bit to bit 23. -/
theorem exists_pattern_of_nat {n : Nat} (h : n < 2 ^ 24) :
    ∃ p < infinityBits, n * unitsPerOne = magUnits p := by
  rcases Nat.eq_zero_or_pos n with rfl | hpos
  · exact ⟨0, by decide, by decide⟩
  have hlog : n.log2 ≤ 23 := Nat.lt_succ_iff.1 ((Nat.log2_lt hpos.ne').2 h)
  obtain ⟨j, hj⟩ := Nat.exists_eq_add_of_le hlog
  have hlo : 2 ^ 23 ≤ n * 2 ^ j := by
    rw [hj, pow_add]
    exact Nat.mul_le_mul_right _ (Nat.log2_self_le hpos.ne')
  have hhi : n * 2 ^ j < 2 ^ 24 := by
    calc n * 2 ^ j < 2 ^ (n.log2 + 1) * 2 ^ j := by
          gcongr
          exact Nat.lt_log2_self
      _ = 2 ^ 24 := by rw [← pow_add]; congr 1; omega
  refine ⟨(149 - j) * 2 ^ 23 + n * 2 ^ j, ?_, ?_⟩
  · simp only [infinityBits]
    omega
  · rw [magUnits_cut hhi.le (.inr hlo), mul_assoc, ← pow_add, Nat.add_sub_cancel' (by omega)]

theorem numValue_numOfNat {n : Nat} (h : n < 2 ^ 24) : numValue (numOfNat n) = n := by
  obtain ⟨p, hp, hn⟩ := exists_pattern_of_nat h
  have hbits : (numOfNat n).toNat = p := by
    rw [numOfNat, fl_toNat, flMag_exact Nat.one_pos (by rw [hn, mul_one]) hp.le]
  rw [numValue_of_lt (hbits ▸ hp), hbits, ← hn, Nat.cast_mul, mul_div_cancel_right₀ _ (by positivity)]

theorem numAdd_eq_fl {x y : Numeric} (hx : x.toNat < infinityBits) (hy : y.toNat < infinityBits) :
    numAdd x y = fl (magUnits x.toNat + magUnits y.toNat : ℕ) unitsPerOne :=
  BitVec.eq_of_toNat_eq (by rw [numAdd_toNat hx hy, fl_toNat])

theorem numMul_eq_fl {x y : Numeric} (hx : x.toNat < infinityBits) (hy : y.toNat < infinityBits) :
    numMul x y = fl (magUnits x.toNat * magUnits y.toNat : ℕ) (unitsPerOne * unitsPerOne) :=
  BitVec.eq_of_toNat_eq (by rw [numMul_toNat hx hy, fl_toNat])

theorem numDiv_eq_fl {x y : Numeric} (hx : x.toNat < infinityBits) (hy : y.toNat < infinityBits)
    (hy0 : 0 < y.toNat) : numDiv x y = fl (magUnits x.toNat : ℕ) (magUnits y.toNat) :=
  BitVec.eq_of_toNat_eq (by rw [numDiv_toNat hx hy hy0, fl_toNat])

/-- Settles O46: each operation is `fl` of the operands' worths combined, whose quotient is the exact result. -/
theorem arithmeticRoundsTheExactResultOnce : Obligations.ArithmeticRoundsTheExactResultOnce := by
  refine ⟨fun n => numValue_numOfNat, fun x y hx hy => ⟨?_, ?_, fun hy0 => ?_⟩⟩
  · refine ⟨_, unitsPerOne, by positivity, ?_, numAdd_eq_fl hx hy⟩
    rw [numValue_of_lt hx, numValue_of_lt hy, ← add_div, Nat.cast_add]
  · refine ⟨_, unitsPerOne * unitsPerOne, by positivity, ?_, numMul_eq_fl hx hy⟩
    rw [numValue_of_lt hx, numValue_of_lt hy, div_mul_div_comm, Nat.cast_mul, Nat.cast_mul]
  · have hpos : 0 < y.toNat := by bv_omega
    refine ⟨_, magUnits y.toNat, magUnits_pos hpos, ?_, numDiv_eq_fl hx hy hpos⟩
    rw [numValue_of_lt hx, numValue_of_lt hy, div_div_div_cancel_right₀ (by positivity)]

/-! ### A step and its command -/

/-- With a command at the head of the inputs, a step runs the command (R3, R75). -/
theorem step_of_cmd {s : State} {w : CmdWord} {rest : List Input} (h : s.inputs = .cmd w :: rest) :
    step s = exec (decodeCmd w) { s with inputs := rest } := by
  obtain ⟨h', -⟩ | ⟨_, _, h', -⟩ | ⟨_, _, h', hstep⟩ := step_cases s
  · simp [h] at h'
  · simp [h] at h'
  · obtain ⟨rfl, rfl⟩ : _ ∧ _ := by simpa [h] using h'
    exact hstep

/-- With no input, a step holds the state (R237). -/
theorem step_of_no_input {s : State} (h : s.inputs = []) : step s = .next s := by
  obtain ⟨-, hstep⟩ | ⟨_, _, h', -⟩ | ⟨_, _, h', -⟩ := step_cases s
  · exact hstep
  · simp [h] at h'
  · simp [h] at h'

/-- Settles O6, by the two cases of a step that are not a reset. -/
theorem stepRunsTheDecodedCommand : Obligations.StepRunsTheDecodedCommand :=
  ⟨fun _ _ _ _ hdec hin => hdec ▸ step_of_cmd hin, fun _ => step_of_no_input⟩

/-! ### The parameters -/

/-- Settles O12: the sentinel 0xAA is accepted as a header 1 and has no status nibble, and 0x5A is not
accepted. -/
theorem hardwareParametersMeetTheConstraints : Obligations.HardwareParametersMeetTheConstraints := by
  unfold Obligations.HardwareParametersMeetTheConstraints
  decide

end Sys2Proof.Machine
end

section
/-!
PROOFS of the family 10_state.md: which commands write which registers (R20, R21), `warn` (R25), the pulse
baseline (R27), the energy total (R36), the reset state (R22, R35).
-/

namespace Sys2Proof.Machine

/-! ### What an instruction leaves unchanged -/

theorem afterByte_eq_storedByte (b : Byte) (cur : BitVec 5) (warn : Bool) (r : Response) (s : State) :
    afterByte b cur warn r s =
      { storedByte b s with cur := cur, warn := warn, rsp := some { r with warn := warn } } := by
  rw [storedByte, stampInvocation_eq]
  rfl

/-- A stream byte stores itself and stamps the invocation; beyond that it writes at most the cursor, `warn`, the
quantities and the response (R103). -/
theorem exec_streamByte_frame {i : Instr} {b : Byte} {s t : State} (hb : i.streamByte = some b)
    (h : exec i s = .next t) :
    t = { storedByte b s with
      cur := t.cur, warn := t.warn, accV := t.accV, accI := t.accI, accP := t.accP, energy := t.energy,
      rsp := t.rsp } := by
  rw [exec_of_streamByte hb] at h
  by_cases hlt : s.cur.toNat < 24
  · obtain ⟨-, hd⟩ | ⟨-, -, hd⟩ | ⟨-, -, _, _, -, -, hd⟩ | ⟨-, -, r, -, hd⟩ := deliverByte_ends b s hlt <;>
      rw [hd] at h <;> cases h
    · rw [afterByte_eq_storedByte]
    · rw [afterByte_eq_storedByte]
    · rw [afterByte_eq_storedByte]
    · rfl
  · rw [deliverByte_of_ge _ _ _ (Nat.le_of_not_lt hlt)] at h
    cases h

/-- Without a stream byte the buffer, `last_t`, `warn`, the pulse baseline and the inputs are unchanged. -/
theorem exec_noByte_frame {i : Instr} {s t : State} (hb : i.streamByte = none) (h : exec i s = .next t) :
    t = { s with
      cur := t.cur, invNow := t.invNow, invFresh := t.invFresh, accV := t.accV, accI := t.accI,
      accP := t.accP, energy := { s.energy with pending := t.energy.pending }, rsp := t.rsp } := by
  obtain ⟨-, hd⟩ | ⟨_, -, hd⟩ | ⟨-, hd⟩ | ⟨-, hd⟩ := exec_of_no_streamByte hb s <;>
    rw [hd] at h <;> cases h <;> rfl

/-- No instruction touches the host's inputs (R20: they are no state of the block). -/
theorem exec_inputs {i : Instr} {s t : State} (h : exec i s = .next t) : t.inputs = s.inputs := by
  cases hb : i.streamByte with
  | none => exact (congrArg State.inputs (exec_noByte_frame hb h) :)
  | some b => exact (congrArg State.inputs (exec_streamByte_frame hb h)).trans (storedByte_inputs b s)

/-- Settles O28: a stream byte's only store is `storedByte`'s, at the cursor. -/
theorem onlyTheByteAtTheCursorIsWritten : Obligations.OnlyTheByteAtTheCursorIsWritten := by
  intro i s t h
  refine ⟨fun hb => (congrArg State.buf (exec_noByte_frame hb h) :), fun b hb => ?_⟩
  have hbuf : t.buf = s.buf.write s.cur.toNat b := congrArg State.buf (exec_streamByte_frame hb h)
  rw [hbuf]
  exact ⟨fun a ha => Memory.read_write_other b ha, Memory.read_write_same b⟩

/-! ### Who writes the accumulators and the energy registers -/

theorem rejectEvent_cases (p : Nat) :
    rejectEvent p = .rejectHdr1 ∨ rejectEvent p = .rejectHdr2 ∨ rejectEvent p = .rejectChecksum := by
  unfold rejectEvent
  split_ifs <;> simp

/-- The quantities change only at PUBLISH and at a committed frame, and only the latter answers EV_FRAME_OK
(R20, R159, R190). -/
theorem exec_quantities {i : Instr} {s t : State} (h : exec i s = .next t) :
    (i = .publish ∧ t = publishCommand s) ∨
    (∃ b rec, i.streamByte = some b ∧ t = commitFrame rec (storedByte b s)) ∨
    (i ≠ .publish ∧ SameQuantities s t ∧ ∀ r, t.rsp = some r → r.evt ≠ .frameOk) := by
  have hpub {b : Byte} (hb : i.streamByte = some b) : i ≠ .publish := by
    rintro rfl
    cases hb
  have hsame (b : Byte) (cur : BitVec 5) (warn : Bool) (r : Response) :
      SameQuantities s (afterByte b cur warn r s) := ⟨rfl, rfl, rfl, rfl⟩
  obtain ⟨rfl, rfl⟩ | ⟨now, rfl, rfl⟩ | hpublish | ⟨hi, rfl⟩ | ⟨b, hb, -, hend⟩ := exec_ends h
  · exact .inr (.inr ⟨nofun, ⟨rfl, rfl, rfl, rfl⟩, by simp [nopCommand]⟩)
  · refine .inr (.inr ⟨nofun, ⟨rfl, rfl, rfl, rfl⟩, ?_⟩)
    cases hf : timeoutFired Config.hw now s.lastT <;> simp [pollCommand, hf]
  · exact .inl hpublish
  · refine .inr (.inr ⟨?_, ⟨rfl, rfl, rfl, rfl⟩, by simp⟩)
    rintro rfl
    simp at hi
  · obtain ⟨-, rfl⟩ | ⟨-, -, rfl⟩ | ⟨-, -, evt, _, hevt, -, rfl⟩ | ⟨-, -, rec, -, rfl⟩ := hend
    · refine .inr (.inr ⟨hpub hb, hsame .., ?_⟩)
      obtain he | he | he := rejectEvent_cases s.cur.toNat <;> simp [afterByte, he]
    · exact .inr (.inr ⟨hpub hb, hsame .., by simp [afterByte]⟩)
    · refine .inr (.inr ⟨hpub hb, hsame .., ?_⟩)
      obtain ⟨rfl, -⟩ | rfl | rfl := hevt <;> simp [afterByte]
    · exact .inr (.inl ⟨b, rec, hb, rfl⟩)

/-- A commit ends the frame and answers, which touches no energy register (R160). -/
@[simp] theorem commitFrame_energy (r : DecodeRecord) (s : State) :
    (commitFrame r s).energy = if r.hp then energyStep r.pcoef r.cf s.energy else s.energy := rfl

/-- Settles O29: a command without a byte is one record update, a stream byte has the frame of
`exec_streamByte_frame`. -/
theorem registersChangeOnlyByTheirWriters : Obligations.RegistersChangeOnlyByTheirWriters := by
  intro i s t r h hr
  refine ⟨exec_inputs h, ?_, ?_, ?_, fun hb => ⟨?_, fun hne => ?_⟩⟩
  · rintro (rfl | ⟨op, rfl⟩ | ⟨op, rfl⟩) <;> cases h <;> rfl
  · rintro ⟨now, rfl⟩
    cases h
    rfl
  · rintro rfl
    cases h
    rfl
  · obtain ⟨b, hb⟩ := Option.isSome_iff_exists.1 hb
    exact (congrArg State.invNow (exec_streamByte_frame hb h)).trans (storedByte_invNow b s)
  · obtain ⟨rfl, -⟩ | ⟨_, _, -, rfl⟩ | ⟨-, hsame, -⟩ := exec_quantities h
    · cases hb
    · cases hr
      exact absurd rfl hne
    · exact hsame

/-! ### The warning status -/

/-- Settles O30: a rejection ends with `warn` 1, a completed frame with 0, and every other end keeps it. -/
theorem warnFollowsRejectionAndCompletion : Obligations.WarnFollowsRejectionAndCompletion := by
  intro i s t r h hr
  obtain ⟨-, rfl⟩ | ⟨now, -, rfl⟩ | ⟨-, rfl⟩ | ⟨-, rfl⟩ | ⟨b, -, -, hend⟩ := exec_ends h
  · cases hr
    exact ⟨rfl, rfl⟩
  · cases hr
    refine ⟨rfl, ?_⟩
    cases hf : timeoutFired Config.hw now s.lastT <;> simp [pollCommand, hf]
  · cases hr
    exact ⟨rfl, rfl⟩
  · cases hr
    exact ⟨rfl, rfl⟩
  · obtain ⟨-, rfl⟩ | ⟨-, -, rfl⟩ | ⟨-, -, evt, _, hevt, -, rfl⟩ | ⟨-, -, rec, -, rfl⟩ := hend <;> cases hr
    · refine ⟨rfl, ?_⟩
      obtain he | he | he := rejectEvent_cases s.cur.toNat <;> simp [afterByte, he]
    · exact ⟨rfl, rfl⟩
    · refine ⟨rfl, ?_⟩
      obtain ⟨rfl, -⟩ | rfl | rfl := hevt <;> rfl
    · exact ⟨rfl, rfl⟩

/-! ### The pulse baseline -/

/-- Settles O48: `commit` runs the energy step exactly for a frame with power, and no other command writes the
baseline. -/
theorem pulseBaselineIsOnlyLostByReset : Obligations.PulseBaselineIsOnlyLostByReset := by
  intro i s t r h hr
  obtain ⟨-, rfl⟩ | ⟨b, rec, -, rfl⟩ | ⟨-, ⟨-, -, -, henergy⟩, hevt⟩ := exec_quantities h
  · cases hr
    exact ⟨id, fun _ => ⟨rfl, rfl⟩, nofun⟩
  · cases hr
    cases hp : rec.hp <;> simp [commitResponse, hp]
  · rw [henergy]
    exact ⟨id, fun _ => ⟨rfl, rfl⟩, fun he => absurd he (hevt r hr)⟩

/-! ### The energy total -/

/-- Finite non-negative patterns are ordered as their values are (R12). -/
theorem numValue_mono {x y : Numeric} (hxy : x.toNat ≤ y.toNat) (hy : y.toNat < infinityBits) :
    numValue x ≤ numValue y := by
  rw [numValue_of_lt (hxy.trans_lt hy), numValue_of_lt hy]
  gcongr
  exact magUnits_strictMono.monotone hxy

theorem numOfNat_mono {n n' : Nat} (h : n ≤ n') : (numOfNat n).toNat ≤ (numOfNat n').toNat := by
  rw [numOfNat, numOfNat, fl_toNat, fl_toNat]
  exact flMag_mono Nat.one_pos Nat.one_pos (Nat.mul_le_mul_right 1 h)

theorem numMul_mono {x x' y y' : Numeric} (hx : x.toNat ≤ x'.toNat) (hy : y.toNat ≤ y'.toNat)
    (hx' : x'.toNat < infinityBits) (hy' : y'.toNat < infinityBits) :
    (numMul x y).toNat ≤ (numMul x' y').toNat := by
  rw [numMul_toNat (hx.trans_lt hx') (hy.trans_lt hy'), numMul_toNat hx' hy']
  exact flMag_mono (by positivity) (by positivity) (Nat.mul_le_mul_right _
    (Nat.mul_le_mul (magUnits_strictMono.monotone hx) (magUnits_strictMono.monotone hy)))

theorem numDiv_mono_left {x x' y : Numeric} (hx : x.toNat ≤ x'.toNat) (hx' : x'.toNat < infinityBits)
    (hy : y.toNat < infinityBits) (hy0 : 0 < y.toNat) : (numDiv x y).toNat ≤ (numDiv x' y).toNat := by
  rw [numDiv_toNat (hx.trans_lt hx') hy hy0, numDiv_toNat hx' hy hy0]
  exact flMag_mono (magUnits_pos hy0) (magUnits_pos hy0)
    (Nat.mul_le_mul_right _ (magUnits_strictMono.monotone hx))

/-- The largest increment is that of the largest operands, since every operation of R183 is monotone. -/
theorem energyIncrement_le (diff : Raw16) (pcoef : Raw24) :
    (energyIncrement diff pcoef).toNat ≤ 0x4398B526 := by
  have hdiff : (numOfNat diff.toNat).toNat ≤ (numOfNat 0xFFFF).toNat := numOfNat_mono (by omega)
  have hcoef : (numOfNat pcoef.toNat).toNat ≤ (numOfNat 0xFFFFFF).toNat := numOfNat_mono (by omega)
  have hmul := numMul_mono hdiff hcoef (by decide +kernel) (by decide +kernel)
  have hdiv1 := numDiv_mono_left (y := numOfNat Config.eDiv1) hmul
    (by decide +kernel) (by decide +kernel) (by decide +kernel)
  have hdiv2 := numDiv_mono_left (y := numOfNat Config.eDiv2) hdiv1
    (by decide +kernel) (by decide +kernel) (by decide +kernel)
  calc (energyIncrement diff pcoef).toNat
      ≤ (energyIncrement 0xFFFF#16 0xFFFFFF#24).toNat := hdiv2
    _ = 0x4398B526 := by decide +kernel

/-- The total keeps its bound 2^34, where it absorbs every increment (R36). -/
theorem energyStep_total_le {e : Energy} (pcoef : Raw24) (cf : Raw16) (h : e.total.toNat ≤ totalBound) :
    (energyStep pcoef cf e).total.toNat ≤ totalBound :=
  numAdd_bounded (X := 0x4398B526) (by decide) (by decide) (by decide) (by decide) h
    (energyIncrement_le _ _) (by decide)

/-- An energy step never decreases the total: its increment is finite and not negative (R36, R183). -/
theorem le_energyStep_total {e : Energy} (pcoef : Raw24) (cf : Raw16) (h : e.total.toNat ≤ totalBound) :
    e.total.toNat ≤ (energyStep pcoef cf e).total.toNat :=
  le_numAdd (h.trans_lt (by decide)) ((energyIncrement_le _ _).trans_lt (by decide))

/-- Settles O44: only a committed frame with power changes the total, by an energy step. -/
theorem energyTotalNeverDecreases : Obligations.EnergyTotalNeverDecreases := by
  refine ⟨fun i s t hinv h => ?_, by decide +kernel⟩
  obtain ⟨-, rfl⟩ | ⟨b, rec, hb, rfl⟩ | ⟨hi, ⟨-, -, -, henergy⟩, -⟩ := exec_quantities h
  · exact ⟨le_rfl, fun _ => rfl⟩
  · refine ⟨?_, by rintro rfl; cases hb⟩
    rw [commitFrame_energy, storedByte_energy]
    split_ifs
    · exact numValue_mono (le_energyStep_total _ _ hinv.total)
        ((energyStep_total_le _ _ hinv.total).trans_lt (by decide))
    · exact le_rfl
  · rw [henergy]
    exact ⟨le_rfl, fun he => absurd he hi⟩

/-! ### Reset -/

/-- Settles O10: the buffer is empty, the cursor 0, and the sums and the total are +0.0. -/
theorem resetStateMeetsTheInvariant : Obligations.ResetStateMeetsTheInvariant where
  bufWf := rfl
  curInFrame := by decide
  headers := rfl
  sumV := by decide
  sumI := by decide
  sumP := by decide
  total := by decide

end Sys2Proof.Machine
end

section
/-!
PROOFS of the family 20_memory.md: the order of a field's bytes (R52), which commands may be repeated (R57), a frame
delivered byte by byte (R65).
-/

namespace Sys2Proof.Machine

/-! ### The order of a field's bytes -/

/-- Appending a byte below a word shifts the word up by 8 bits (R11). -/
theorem toNat_append_byte {n : Nat} (x : BitVec n) (b : Byte) : (x ++ b).toNat = x.toNat * 256 + b.toNat := by
  rw [BitVec.toNat_append, ← Nat.shiftLeft_add_eq_or_of_lt b.isLt, Nat.shiftLeft_eq]

/-- Settles O34: each further byte of a field is appended below the ones before it. -/
theorem fieldsAreBigEndian : Obligations.FieldsAreBigEndian := by
  intro m k
  refine ⟨?_, toNat_append_byte _ _⟩
  rw [be24, toNat_append_byte, toNat_append_byte]
  omega

/-! ### Repeated commands -/

/-- POLL writes nothing its timeout check reads, so repeating it with one `now` changes nothing (R57, R102). -/
theorem pollCommand_pollCommand (c : Params) (now : Time) (s : State) :
    pollCommand c now (pollCommand c now s) = pollCommand c now s := by
  unfold pollCommand
  cases h : timeoutFired c now s.lastT <;> simp [respond, h]

/-- A drained accumulator has no samples (R187). -/
@[simp] theorem drainAcc_cnt (a : Acc) : (drainAcc a).cnt = 0#32 := by
  unfold drainAcc
  split_ifs with h
  · exact h
  · rfl

/-- A drain leaves an accumulator without samples as it is (R187). -/
theorem drainAcc_of_empty {a : Acc} (h : a.cnt = 0#32) : drainAcc a = a := if_pos h

/-- A drain delivers a mean exactly where there are samples (R187). -/
@[simp] theorem drainValue_isSome (a : Acc) : (drainValue a).isSome = decide (a.cnt ≠ 0#32) := by
  by_cases h : a.cnt = 0#32 <;> simp [drainValue, h]

/-- The energy drain delivers the total exactly where increments are pending (R188). -/
@[simp] theorem drainEnergyValue_isSome (e : Energy) :
    (drainEnergyValue e).isSome = decide (e.pending ≠ 0#32) := by
  by_cases h : e.pending = 0#32 <;> simp [drainEnergyValue, h]

@[simp] theorem publishCommand_rsp (s : State) :
    (publishCommand s).rsp = some { publishResponse s with warn := s.warn } := rfl

/-- A PUBLISH after a PUBLISH changes no quantity (R57, R187, R188). -/
theorem publishCommand_sameQuantities (s : State) :
    SameQuantities (publishCommand s) (publishCommand (publishCommand s)) :=
  ⟨drainAcc_of_empty (drainAcc_cnt _), drainAcc_of_empty (drainAcc_cnt _), drainAcc_of_empty (drainAcc_cnt _), rfl⟩

/-- Where a count was above 0, the first PUBLISH answers that it delivered and the second that it did not, so they
answer different states (R57). -/
theorem publishCommand_publishCommand_ne {s : State}
    (h : s.accV.cnt ≠ 0#32 ∨ s.accI.cnt ≠ 0#32 ∨ s.accP.cnt ≠ 0#32 ∨ s.energy.pending ≠ 0#32) :
    publishCommand (publishCommand s) ≠ publishCommand s := by
  intro heq
  have hflags := congrArg (·.rsp.map fun r => (r.pubVOk, r.pubIOk, r.pubPOk, r.pubEOk)) heq
  obtain ⟨hV, hI, hP, hE⟩ :
      s.accV.cnt = 0#32 ∧ s.accI.cnt = 0#32 ∧ s.accP.cnt = 0#32 ∧ s.energy.pending = 0#32 := by
    simpa [publishResponse, publishCommand] using hflags
  simp [hV, hI, hP, hE] at h

/-- Settles O18: POLL repeated is POLL, a drained quantity delivers nothing, and NOP only responds. -/
theorem pollIsIdempotentPublishIsNot : Obligations.PollIsIdempotentPublishIsNot := by
  refine fun s => ⟨fun now t ht => ?_, fun t ht => ?_, ?_, fun t ht => ?_⟩
  · cases ht
    exact congrArg Host.Outcome.next (pollCommand_pollCommand Config.hw now s)
  · cases ht
    exact ⟨_, _, rfl, rfl, publishCommand_sameQuantities s, by simp [publishResponse, publishCommand]⟩
  · refine ⟨publishCommand s, _, rfl, rfl, ?_, ?_, ?_, ?_, fun h heq => ?_⟩
    · simp [publishResponse]
    · simp [publishResponse]
    · simp [publishResponse]
    · simp [publishResponse]
    · exact publishCommand_publishCommand_ne h (Host.Outcome.next.inj heq)
  · cases ht
    rfl

/-! ### The buffer after several stores -/

/-- Stores inside the buffer keep the canonical form (R50). -/
theorem writeBytes_wf {bs : List Byte} : ∀ {k : Nat} {m : Memory}, m.wf = true → k + bs.length ≤ 24 →
    (writeBytes k bs m).wf = true := by
  induction bs with
  | nil => exact fun h _ => h
  | cons b bs ih =>
    intro k m h hk
    rw [List.length_cons] at hk
    exact ih (Memory.write_wf b h (by omega)) (by omega)

/-- What a read after several stores gives: the byte stored there, or what was there before (R21). -/
theorem read_writeBytes {bs : List Byte} : ∀ {k : Nat} {m : Memory} (a : Nat), m.wf = true →
    k + bs.length ≤ 24 →
    (writeBytes k bs m).read a = if a < k then m.read a else bs.getD (a - k) (m.read a) := by
  induction bs with
  | nil => intros; simp [writeBytes]
  | cons b bs ih =>
    intro k m a h hk
    rw [List.length_cons] at hk
    rw [writeBytes, ih a (Memory.write_wf b h (by omega)) (by omega), Memory.read_write b h]
    obtain hlt | rfl | hgt := Nat.lt_trichotomy a k
    · rw [if_pos (by omega), if_neg (by omega), if_pos hlt]
    · simp
    · rw [if_neg (by omega), if_neg (by omega), if_neg (by omega), show a - k = a - (k + 1) + 1 by omega,
        List.getD_cons_succ]

/-- A frame's worth of bytes leaves nothing of the buffer's earlier contents (R35). -/
theorem writeBytes_eq_bufferOf {bs : List Byte} {m : Memory} (h : m.wf = true) (hlen : bs.length = 24) :
    writeBytes 0 bs m = bufferOf bs := by
  refine Memory.ext (writeBytes_wf h (by omega)) (writeBytes_wf rfl (by omega)) fun a => ?_
  rw [read_writeBytes a h (by omega), bufferOf, read_writeBytes a rfl (by omega)]
  by_cases ha : a < 24
  · simp [List.getD_eq_getElem?_getD, List.getElem?_eq_getElem (hlen ▸ ha)]
  · rw [Memory.read_above h (Nat.le_of_not_lt ha), Memory.read_nil]

/-- The buffer of a frame's bytes holds each at its position (R21). -/
theorem read_bufferOf {bs : List Byte} (hlen : bs.length ≤ 24) (k : Nat) :
    (bufferOf bs).read k = bs.getD k 0#8 := by
  rw [bufferOf, read_writeBytes k rfl (by omega)]
  simp

/-! ### The frame validator on a whole frame -/

/-- The check at a position reads no byte above it (R104). -/
theorem valid_congr {m m' : Memory} {p : Nat} (c : Params) (hp : p < 24)
    (h : ∀ k, k ≤ p → m.read k = m'.read k) : valid c m p = valid c m' p := by
  have hsum : p = 23 → bodyTotal m = bodyTotal m' := by
    rintro rfl
    refine Finset.sum_congr rfl fun k hk => ?_
    rw [h k (by rw [Finset.mem_Icc] at hk; omega)]
  unfold valid checksumOk
  split_ifs with h0 h1 h23
  · rw [h 0 (by omega)]
  · rw [h 1 (by omega)]
  · rw [bodySum_eq_bodyTotal, bodySum_eq_bodyTotal, hsum h23, h Config.lastPos h23.ge]
  · rfl

/-- A buffer with good headers and checksum passes the check at every position (R104 to R108). -/
theorem valid_of_goodFrame {m : Memory} (h0 : hdr1Ok Config.hw (m.read 0) = true) (h1 : m.read 1 = 0x5A#8)
    (h23 : bodyTotal m % 256 = (m.read 23).toNat) {p : Nat} (hp : p < 24) :
    valid Config.hw m p = true := by
  obtain rfl | rfl | rfl | ⟨h2, h22⟩ : p = 0 ∨ p = 1 ∨ p = 23 ∨ 2 ≤ p ∧ p ≤ 22 := by omega
  · exact h0
  · simp [valid, h1]
  · simp [valid, checksumOk, bodySum_eq_bodyTotal, h23]
  · exact valid_body _ _ h2 h22

/-! ### The steps that deliver a frame -/

/-- The state after an accepted byte `b`, with the inputs `is` left (R103). -/
def acceptedByte (b : Byte) (is : List Input) (s : State) : State :=
  afterByte b (s.cur + 1#5) s.warn { evt := .byteAccepted, pos := s.cur } { s with inputs := is }

/-- The host's next inputs deliver the bytes `bs`, which fill the frame from the cursor to its end, and each of them
passes the check at its position (R65, R104). -/
structure DeliversFrame (bs : List Byte) (rest : List Input) (s : State) : Prop where
  wf : s.buf.wf = true
  length : s.cur.toNat + bs.length = 24
  inputs : s.inputs = deliverInputs bs ++ rest
  checked : ∀ p, s.cur.toNat ≤ p → p < 24 → valid Config.hw (writeBytes s.cur.toNat bs s.buf) p = true

/-- The state `u` is `s` after the bytes `bs` were stored from the cursor on, with the inputs `rest` left: the
invocation stamped, no quantity changed (R50, R103). -/
structure StoredBytes (bs : List Byte) (rest : List Input) (s u : State) : Prop where
  buf : u.buf = writeBytes s.cur.toNat bs s.buf
  lastT : u.lastT = if s.invFresh then s.invNow else s.lastT
  inputs : u.inputs = rest
  quantities : SameQuantities s u

section Deliver

variable {b : Byte} {bs : List Byte} {rest : List Input} {s : State}

theorem DeliversFrame.cur_lt (h : DeliversFrame (b :: bs) rest s) : s.cur.toNat < 24 := by
  have hlen := h.length
  rw [List.length_cons] at hlen
  omega

/-- The next byte passes the check when it is stored: that check reads no later byte (R104). -/
theorem DeliversFrame.head_valid (h : DeliversFrame (b :: bs) rest s) :
    valid Config.hw (s.buf.write s.cur.toNat b) s.cur.toNat = true := by
  have hlen := h.length
  rw [List.length_cons] at hlen
  refine (valid_congr _ h.cur_lt fun k hk => ?_).trans (h.checked _ le_rfl h.cur_lt)
  rw [writeBytes, read_writeBytes k (Memory.write_wf b h.wf h.cur_lt) (by omega), if_pos (by omega)]

/-- A step stores the next byte at the cursor; at position 23 this completes the frame, before it the byte is
accepted (R65, R103). -/
theorem DeliversFrame.step_eq (h : DeliversFrame (b :: bs) rest s) :
    step s =
      if s.cur.toNat = 23 then
        completeFrame Config.hw (storedByte b { s with inputs := deliverInputs bs ++ rest })
      else .next (acceptedByte b (deliverInputs bs ++ rest) s) := by
  have hstep : step s = deliverByte Config.hw b { s with inputs := deliverInputs bs ++ rest } := by
    rw [step_of_cmd h.inputs, decodeCmd_byte]
    rfl
  have hstored := deliverByte_of_lt Config.hw b { s with inputs := deliverInputs bs ++ rest } h.cur_lt
  rw [hstep, hstored, checkByte, storedByte_buf, if_pos h.head_valid, acceptByte_stored]
  rfl

theorem acceptedByte_cur_toNat (is : List Input) (hcur : s.cur.toNat < 23) :
    (acceptedByte b is s).cur.toNat = s.cur.toNat + 1 := by
  change (s.cur + 1#5).toNat = _
  bv_omega

/-- After an accepted byte the others still fill the frame and pass their checks (R103). -/
theorem DeliversFrame.of_acceptedByte (h : DeliversFrame (b :: bs) rest s) (hcur : s.cur.toNat < 23) :
    DeliversFrame bs rest (acceptedByte b (deliverInputs bs ++ rest) s) where
  wf := Memory.write_wf b h.wf h.cur_lt
  length := by
    have hlen := h.length
    rw [List.length_cons] at hlen
    rw [acceptedByte_cur_toNat _ hcur]
    omega
  inputs := rfl
  checked p hp hp24 := by
    rw [acceptedByte_cur_toNat _ hcur] at hp ⊢
    exact h.checked p (by omega) hp24

/-- One byte stored, as `storedByte` says it. -/
theorem storedBytes_singleton : StoredBytes [b] rest s (storedByte b { s with inputs := rest }) where
  buf := rfl
  lastT := storedByte_lastT ..
  inputs := storedByte_inputs ..
  quantities := ⟨storedByte_accV .., storedByte_accI .., storedByte_accP .., storedByte_energy ..⟩

/-- The bytes after an accepted one are stored behind it and keep its stamp (R24, R103). -/
theorem StoredBytes.cons {is : List Input} {u : State} (hcur : s.cur.toNat < 23)
    (h : StoredBytes bs rest (acceptedByte b is s) u) : StoredBytes (b :: bs) rest s u where
  buf := by
    rw [h.buf, acceptedByte_cur_toNat _ hcur]
    rfl
  lastT := h.lastT
  inputs := h.inputs
  quantities := h.quantities

end Deliver

/-- A run goes on from the state its first step answers. -/
theorem run_succ_of_step {s t : State} (n : Nat) (h : step s = .next t) :
    Host.Core.run Sys2Proof.core (n + 1) s = Host.Core.run Sys2Proof.core n t := by
  simp only [Host.Core.run, show Sys2Proof.core.step s = .next t from h]

/-- A run of one step is the step. -/
theorem run_one (s : State) : Host.Core.run Sys2Proof.core 1 s = step s := by
  simp only [Host.Core.run]
  cases h : Sys2Proof.core.step s <;> exact h.symm

/-- The steps that deliver the rest of a frame bring the block to the frame's completion, by induction on its bytes
(R65, R103). -/
theorem run_of_deliversFrame {rest : List Input} (b : Byte) (bs : List Byte) (s : State)
    (h : DeliversFrame (b :: bs) rest s) :
    ∃ u, Host.Core.run Sys2Proof.core (bs.length + 1) s = completeFrame Config.hw u ∧
      StoredBytes (b :: bs) rest s u := by
  have hstep := h.step_eq
  have hlen := h.length
  induction bs generalizing b s with
  | nil =>
    rw [if_pos (by simpa using hlen)] at hstep
    exact ⟨_, (run_one s).trans hstep, storedBytes_singleton⟩
  | cons b' bs ih =>
    have hcur : s.cur.toNat < 23 := by
      rw [List.length_cons, List.length_cons] at hlen
      omega
    rw [if_neg hcur.ne] at hstep
    have hnext := h.of_acceptedByte hcur
    obtain ⟨u, hrun, hu⟩ := ih b' _ hnext hnext.step_eq hnext.length
    exact ⟨u, (run_succ_of_step _ hstep).trans hrun, hu.cons hcur⟩

/-! ### The completion of a frame by its decode outcome -/

section Complete

variable {s : State}

/-- R141. -/
theorem completeFrame_of_uncalibrated (h : decodeFrame Config.hw s.buf = .uncalibrated) :
    completeFrame Config.hw s = .next (discardFrame .frameUncalibrated 0#4 s) := by
  simp only [completeFrame, h]

/-- R142. -/
theorem completeFrame_of_abortStatus {bits : BitVec 4} (h : decodeFrame Config.hw s.buf = .abortStatus bits) :
    completeFrame Config.hw s = .next (discardFrame .frameAbortStatus bits s) := by
  simp only [completeFrame, h]

/-- R155: the hardware discards the frame. -/
theorem completeFrame_of_zeroCycle {w : ZeroCycle} (h : decodeFrame Config.hw s.buf = .zeroCycle w) :
    completeFrame Config.hw s = .next (discardFrame .frameZeroCycle (zeroCycleInfo w) s) := by
  simp only [completeFrame, h, Config.hw_zeroCycle]

/-- R160: the hardware's counts wrap (R186). -/
theorem completeFrame_of_ok {rec : DecodeRecord} (h : decodeFrame Config.hw s.buf = .ok rec) :
    completeFrame Config.hw s = .next (commitFrame rec s) := by
  simp only [completeFrame, h, Config.hw_countOverflow]

end Complete

/-- A commit reads only the record and the quantities (R160). -/
theorem commitRegs_sameQuantities {s u : State} (rec : DecodeRecord) (h : SameQuantities s u) :
    SameQuantities (commitRegs rec s) (commitRegs rec u) := by
  obtain ⟨hV, hI, hP, hE⟩ := h
  simp [SameQuantities, hV, hI, hP, hE]

/-- From cursor 0, bytes with good headers and checksum fill the frame and pass every check (R104, R105, R106,
R108). -/
theorem deliversFrame_of_goodBytes {bs : List Byte} {s : State} {rest : List Input} (hwf : s.buf.wf = true)
    (hcur : s.cur = 0#5) (hlen : bs.length = 24) (h0 : hdr1Ok Config.hw (bs.getD 0 0#8) = true)
    (h1 : bs.getD 1 0#8 = 0x5A#8) (h23 : bodyTotal (bufferOf bs) % 256 = (bs.getD 23 0#8).toNat)
    (hin : s.inputs = deliverInputs bs ++ rest) : DeliversFrame bs rest s := by
  have hcur0 : s.cur.toNat = 0 := congrArg BitVec.toNat hcur
  have hread := read_bufferOf hlen.le
  rw [← hread] at h0 h1 h23
  refine ⟨hwf, by omega, hin, fun p _ hp => ?_⟩
  rw [hcur0, writeBytes_eq_bufferOf hwf hlen]
  exact valid_of_goodFrame h0 h1 h23 hp

/-- Settles O53: 23 bytes are accepted, the last completes the frame, and the buffer is then `bufferOf bs`. -/
theorem deliveredFrameIsDecoded : Obligations.DeliveredFrameIsDecoded := by
  intro bs s rest hwf hcur hlen h0 h1 h23 hin
  have hcur0 : s.cur.toNat = 0 := congrArg BitVec.toNat hcur
  have hdeliver := deliversFrame_of_goodBytes hwf hcur hlen h0 h1 h23 hin
  obtain ⟨b, bs, rfl⟩ := List.exists_cons_of_length_eq_add_one hlen
  obtain ⟨u, hrun, hbuf, hlastT, hinputs, hquant⟩ := run_of_deliversFrame b bs s hdeliver
  rw [hcur0, writeBytes_eq_bufferOf hwf hlen] at hbuf
  rw [← List.length_cons, hlen] at hrun
  have hread (k : Nat) (_ : k < 24) : u.buf.read k = (b :: bs).getD k 0#8 :=
    hbuf ▸ read_bufferOf hlen.le k
  cases hd : decodeFrame Config.hw (bufferOf (b :: bs)) with
  | uncalibrated =>
    exact ⟨_, _, hrun.trans (completeFrame_of_uncalibrated (hbuf ▸ hd)), rfl, hinputs, rfl, rfl, rfl, hread,
      hlastT, rfl, hquant⟩
  | abortStatus bits =>
    exact ⟨_, _, hrun.trans (completeFrame_of_abortStatus (hbuf ▸ hd)), rfl, hinputs, rfl, rfl, rfl, hread,
      hlastT, rfl, rfl, hquant⟩
  | zeroCycle w =>
    exact ⟨_, _, hrun.trans (completeFrame_of_zeroCycle (hbuf ▸ hd)), rfl, hinputs, rfl, rfl, rfl, hread,
      hlastT, rfl, rfl, hquant⟩
  | ok rec =>
    obtain ⟨-, -, -, henergy⟩ := id hquant
    refine ⟨_, _, hrun.trans (completeFrame_of_ok (hbuf ▸ hd)), rfl, hinputs, rfl, rfl, rfl, hread, hlastT, ?_,
      commitRegs_sameQuantities rec hquant⟩
    rw [← henergy]
    rfl

end Sys2Proof.Machine
end

section
/-!
PROOFS of the family 30_encoding.md: the command words (R71 to R75), the pseudo-instructions (R77), the response
(R78, R79), the frame-byte rows (R85 to R88).
-/

namespace Sys2Proof

/-! ### Command words -/

/-- The low `k` bits of a number do not change when `2 ^ k` is taken from it. -/
theorem ofNat_sub_two_pow {k n : Nat} (h : 2 ^ k ≤ n) : BitVec.ofNat k (n - 2 ^ k) = BitVec.ofNat k n := by
  apply BitVec.eq_of_toNat_eq
  rw [BitVec.toNat_ofNat, BitVec.toNat_ofNat, Nat.mod_eq_sub_mod h]

/-- RESERVED_4_7 is OP 0b01xx (R73). -/
theorem decodeCmd_of_reserved47 {op : BitVec 4} (arg : BitVec 32) (h4 : 4 ≤ op.toNat) (h8 : op.toNat < 8) :
    decodeCmd (cmdWord op arg) = .reserved47 (BitVec.ofNat 2 (op.toNat - 4)) := by
  rw [decodeCmd_cmdWord, if_neg (by omega), if_neg (by omega), if_neg (by omega), if_neg (by omega), if_pos h8]
  exact congrArg _ (ofNat_sub_two_pow (k := 2) h4).symm

/-- RESERVED_8_F is OP 0b1xxx (R73). -/
theorem decodeCmd_of_reserved8F {op : BitVec 4} (arg : BitVec 32) (h8 : 8 ≤ op.toNat) :
    decodeCmd (cmdWord op arg) = .reserved8F (BitVec.ofNat 3 (op.toNat - 8)) := by
  rw [decodeCmd_cmdWord, if_neg (by omega), if_neg (by omega), if_neg (by omega), if_neg (by omega),
    if_neg (by omega)]
  exact congrArg _ (ofNat_sub_two_pow (k := 3) h8).symm

/-- Settles O2, by the branches of the decoder on OP. -/
theorem commandWordsDecodeByOpAlone : Obligations.CommandWordsDecodeByOpAlone := by
  intro op arg
  rw [← cmdWord]
  refine ⟨?_, ?_, ?_, ?_, decodeCmd_of_reserved47 arg, decodeCmd_of_reserved8F arg⟩
  · rintro rfl
    exact decodeCmd_cmdWord 0#4 arg
  · rintro rfl
    exact decodeCmd_cmdWord 1#4 arg
  · rintro rfl
    exact decodeCmd_cmdWord 2#4 arg
  · rintro rfl
    exact decodeCmd_cmdWord 3#4 arg

/-- Settles O3: the decoder reads ARG only for POLL, and only ARG[7:0] for BYTE. -/
theorem ignoredBitsDoNotChangeTheCommand : Obligations.IgnoredBitsDoNotChangeTheCommand := by
  intro op arg arg' hpoll hbyte
  have h1 : op.toNat ≠ 1 := fun h => hpoll (BitVec.eq_of_toNat_eq h)
  rw [← cmdWord, ← cmdWord, decodeCmd_cmdWord, decodeCmd_cmdWord, if_neg h1, if_neg h1]
  by_cases h2 : op = 2#4
  · rw [hbyte h2]
  · have h2 : op.toNat ≠ 2 := fun h => h2 (BitVec.eq_of_toNat_eq h)
    rw [if_neg h2, if_neg h2]

/-! ### Decoding after encoding -/

/-- The operand of a RESERVED_4_7 word is read back from its OP (R73). -/
theorem decodeCmd_reserved47_word : ∀ op : BitVec 2,
    decodeCmd (cmdWord (0b01#2 ++ op) 0#32) = .reserved47 op := by
  decide

/-- The operand of a RESERVED_8_F word is read back from its OP (R73). -/
theorem decodeCmd_reserved8F_word : ∀ op : BitVec 3,
    decodeCmd (cmdWord (0b1#1 ++ op) 0#32) = .reserved8F op := by
  decide

/-- A status-flagged header without an abort bit is HDR1_STATUS_OK with its PCER bit (R85, R142). -/
theorem decodeHdr1_statusOk (pcer : Bool) :
    decodeHdr1 (statusByte (0b00#2 ++ BitVec.ofBool pcer ++ 0b0#1)) = .hdr1StatusOk pcer := by
  cases pcer <;> rfl

/-- A status-flagged header with an abort bit is HDR1_STATUS_ABORT with its low nibble (R85, R142). -/
theorem decodeHdr1_statusAbort : ∀ status : BitVec 4, (Instr.hdr1StatusAbort status).wf = true →
    decodeHdr1 (statusByte status) = .hdr1StatusAbort status := by
  decide

/-- A byte of no other class is HDR1_REJECT (R85). -/
theorem decodeHdr1_reject : ∀ h1 : Byte, (Instr.hdr1Reject h1).wf = true → decodeHdr1 h1 = .hdr1Reject h1 := by
  decide

/-- The adjustment byte's fields are read back from it (R88). -/
theorem decodeAdj_adjByte : ∀ (ignored7 hv hi hp : Bool) (ignored30 : BitVec 4),
    decodeAdj (adjByte ignored7 hv hi hp ignored30) = .adj ignored7 hv hi hp ignored30 := by
  decide

/-- Settles O1, row by row: the fields of each encoding are read back. -/
theorem decodeOfEncodedIsTheInstruction : Obligations.DecodeOfEncodedIsTheInstruction := by
  intro i hwf
  cases i with
  | nop => exact congrArg Except.ok (decodeCmd_cmdWord 0x0#4 0#32)
  | poll now => exact congrArg Except.ok (decodeCmd_cmdWord 0x1#4 now)
  | byte b => exact congrArg Except.ok (decodeCmd_byte b)
  | publish => exact congrArg Except.ok (decodeCmd_cmdWord 0x3#4 0#32)
  | reserved47 op => exact congrArg Except.ok (decodeCmd_reserved47_word op)
  | reserved8F op => exact congrArg Except.ok (decodeCmd_reserved8F_word op)
  | hdr1Primary => rfl
  | hdr1Uncal => rfl
  | hdr1StatusOk pcer => exact congrArg Except.ok (decodeHdr1_statusOk pcer)
  | hdr1StatusAbort status => exact congrArg Except.ok (decodeHdr1_statusAbort status hwf)
  | hdr1Reject h1 => exact congrArg Except.ok (decodeHdr1_reject h1 hwf)
  | hdr2 => rfl
  | adj ignored7 hv hi hp ignored30 =>
    exact congrArg Except.ok (decodeAdj_adjByte ignored7 hv hi hp ignored30)

/-! ### The classes of header 1 -/

/-- The classes of header 1 by the values column of R85. -/
theorem decodeHdr1_eq : ∀ b : Byte, decodeHdr1 b =
    if b = 0x55#8 then .hdr1Primary
    else if b = 0xAA#8 then .hdr1Uncal
    else if b.toNat < 0xF0 then .hdr1Reject b
    else if b = 0xF0#8 ∨ b = 0xF2#8 then .hdr1StatusOk (b == 0xF2#8)
    else .hdr1StatusAbort (b.extractLsb' 0 4) := by
  decide

/-- Settles O4, by the five classes of `decodeHdr1_eq`. -/
theorem headerOneClassesPartitionTheBytes : Obligations.HeaderOneClassesPartitionTheBytes := by
  intro b
  obtain ⟨hwf, hbyte⟩ := decodeHdr1_carries b
  refine ⟨hwf, hbyte, ?_⟩
  rw [decodeHdr1_eq]
  split_ifs with hprimary huncal hreject hok
  · subst hprimary
    simp
  · subst huncal
    simp
  · have hne : b ≠ 0xF0#8 ∧ b ≠ 0xF2#8 := ⟨by bv_omega, by bv_omega⟩
    simp [hprimary, huncal, hreject, hne]
  · obtain rfl | rfl := hok <;> simp
  · simp [hprimary, huncal, hreject, not_or.1 hok]
    omega

/-- Settles O5: each word is a numeral, and the decoder is evaluated on it. -/
theorem writtenWordsDecode : Obligations.WrittenWordsDecode := by
  unfold Obligations.WrittenWordsDecode
  decide

end Sys2Proof

namespace Sys2Proof.Machine

/-! ### The pseudo-instructions -/

/-- A command word whose operand is a number, as one number (R71). -/
theorem cmdWord_ofNat (op : BitVec 4) {n : Nat} (h : n < 2 ^ 32) :
    cmdWord op (BitVec.ofNat 32 n) = BitVec.ofNat 36 (op.toNat * 2 ^ 32 + n) := by
  apply BitVec.eq_of_toNat_eq
  rw [cmdWord_toNat, BitVec.toNat_ofNat, BitVec.toNat_ofNat]
  omega

theorem pollInput_of_lt {n : Nat} (h : n < 2 ^ 32) :
    pollInput n = some (.cmd (BitVec.ofNat 36 (2 ^ 32 + n))) := by
  rw [pollInput, if_pos h, cmdWord_ofNat _ h]
  rfl

theorem byteInput_of_lt {b : Nat} (h : b < 2 ^ 8) :
    byteInput b = some (.cmd (BitVec.ofNat 36 (2 * 2 ^ 32 + b))) := by
  rw [byteInput, if_pos h, cmdWord_ofNat _ (by omega)]
  rfl

/-- BYTES is one BYTE for each operand (R77), by induction on the operands. -/
theorem byteInputs_of_lt {bs : List Nat} (h : ∀ b ∈ bs, b < 256) :
    byteInputs bs = some (bs.map fun b => .cmd (BitVec.ofNat 36 (2 * 2 ^ 32 + b))) := by
  induction bs with
  | nil => rfl
  | cons b bs ih =>
    obtain ⟨hb, hbs⟩ := List.forall_mem_cons.1 h
    rw [byteInputs, byteInput_of_lt hb, ih hbs]
    rfl

/-- Settles O11: POLL's and BYTE's words as numbers, and the test on the number of FRAME's operands. -/
theorem pseudoInstructionsExpand : Obligations.PseudoInstructionsExpand := by
  intro n bs hn hbs
  have hbytes : bs ≠ [] → (Stmt.bytes bs).expand = byteInputs bs := fun hne =>
    if_neg (by simpa using hne)
  refine ⟨?_, fun hne => ?_, fun h24 => ?_, fun h24 => if_neg h24, rfl⟩
  · rw [Stmt.expand, pollInput_of_lt hn, byteInputs_of_lt hbs]
  · rw [hbytes hne, byteInputs_of_lt hbs]
  · have hne : bs ≠ [] := by
      rintro rfl
      cases h24
    rw [hbytes hne, Stmt.expand, if_pos h24]

/-! ### The response -/

/-- What a command answers (R78, R79): PUBLISH the drains, a committed frame its decode record, and every other
command at most the event, the position of a stream byte, and `info` of a discarded frame. -/
theorem exec_response {i : Instr} {s t : State} (h : exec i s = .next t) :
    (i = .publish ∧ t.rsp = some { publishResponse s with warn := t.warn }) ∨
    (∃ b rec, i.streamByte = some b ∧ s.cur = 23#5 ∧
      t.rsp = some { commitResponse rec s.energy with warn := t.warn }) ∨
    ∃ evt info, i ≠ .publish ∧ evt ≠ .frameOk ∧
      (evt ≠ .frameAbortStatus → evt ≠ .frameZeroCycle → info = 0#4) ∧
      t.rsp = some { evt := evt, pos := if i.streamByte.isSome then s.cur else 0#5, info := info,
                     warn := t.warn } := by
  obtain ⟨rfl, rfl⟩ | ⟨now, rfl, rfl⟩ | ⟨rfl, rfl⟩ | ⟨hi, rfl⟩ | ⟨b, hb, -, hend⟩ := exec_ends h
  · exact .inr (.inr ⟨.none, 0#4, nofun, nofun, fun _ _ => rfl, rfl⟩)
  · refine .inr (.inr ⟨_, 0#4, nofun, ?_, fun _ _ => rfl, rfl⟩)
    split <;> nofun
  · exact .inl ⟨rfl, rfl⟩
  · obtain ⟨op, rfl⟩ | ⟨op, rfl⟩ := hi <;>
      exact .inr (.inr ⟨.illegalCmd, 0#4, nofun, nofun, fun _ _ => rfl, rfl⟩)
  · have hpub : i ≠ .publish := by
      rintro rfl
      cases hb
    obtain ⟨-, rfl⟩ | ⟨-, -, rfl⟩ | ⟨-, hcur, evt, info, hevt, -, rfl⟩ | ⟨-, hcur, rec, -, rfl⟩ := hend
    · refine .inr (.inr ⟨rejectEvent s.cur.toNat, 0#4, hpub, ?_, fun _ _ => rfl, by rw [hb]; rfl⟩)
      obtain he | he | he := rejectEvent_cases s.cur.toNat <;> rw [he] <;> nofun
    · exact .inr (.inr ⟨.byteAccepted, 0#4, hpub, nofun, fun _ _ => rfl, by rw [hb]; rfl⟩)
    · refine .inr (.inr ⟨evt, info, hpub, ?_, ?_, by rw [hb, hcur]; rfl⟩)
      · obtain ⟨rfl, -⟩ | rfl | rfl := hevt <;> nofun
      · obtain ⟨-, rfl⟩ | rfl | rfl := hevt <;> simp
    · exact .inr (.inl ⟨b, rec, hb, hcur, by rw [commitFrame_stored]; rfl⟩)

/-- Settles O31, by the three forms of a response. -/
theorem responsesCarryWarnAndDefaults : Obligations.ResponsesCarryWarnAndDefaults := by
  intro i s t h
  obtain ⟨rfl, hr⟩ | ⟨b, rec, hb, hcur, hr⟩ | ⟨evt, info, hi, hevt, hinfo, hr⟩ := exec_response h <;>
    refine ⟨_, hr, rfl, ?_⟩
  · simp [publishResponse, Instr.streamByte]
  · have hi : i ≠ .publish := by
      rintro rfl
      cases hb
    simp [commitResponse, hb, hcur]
  · simpa [hevt] using hinfo

/-- Settles O16: RESERVED_4_7 and RESERVED_8_F share one meaning, which the two parameter sets decide. -/
theorem reservedCommandsAnswerIllegal : Obligations.ReservedCommandsAnswerIllegal := by
  rintro i s (⟨op, rfl⟩ | ⟨op, rfl⟩) <;> exact ⟨rfl, rfl⟩

/-! ### The frame-byte rows -/

/-- A byte's row at the cursor is the row of a frame position. -/
theorem frameRow_eq_some {cur : Nat} {b : Byte} {i : Instr} (h : frameRow cur b = some i) :
    ∃ pos, decodeFrameByte pos b = .ok i := by
  unfold frameRow at h
  split at h
  · cases h
  · split at h
    · next hd => exact ⟨_, hd.trans (congrArg _ (Option.some.inj h))⟩
    · cases h

/-- Settles O7: a row carries its byte, and what carries a byte delivers it. -/
theorem streamByteRunsItsFrameRow : Obligations.StreamByteRunsItsFrameRow := by
  intro s b i h
  obtain ⟨pos, hpos⟩ := frameRow_eq_some h
  obtain ⟨hwf, hb⟩ := decodeFrameByte_carries hpos
  exact ⟨hwf, hb, (exec_of_streamByte hb s).symm⟩

section Rows

variable {i : Instr} {b : Byte} {s : State}

/-- A stream byte that is valid before the last position is stored and the cursor advances (R103). -/
theorem exec_of_valid (hb : i.streamByte = some b) (hcur : s.cur.toNat < 23)
    (hv : valid Config.hw (s.buf.write s.cur.toNat b) s.cur.toNat = true) :
    exec i s = .next (afterByte b (s.cur + 1#5) s.warn { evt := .byteAccepted, pos := s.cur } s) := by
  rw [exec_of_streamByte hb, deliverByte_of_lt _ _ _ (by omega), checkByte, storedByte_buf, if_pos hv,
    if_neg hcur.ne, acceptByte_stored]

/-- A stream byte that is not valid is stored and the cursor goes back to 0 (R103, R109). -/
theorem exec_of_invalid (hb : i.streamByte = some b) (hcur : s.cur.toNat < 24)
    (hv : valid Config.hw (s.buf.write s.cur.toNat b) s.cur.toNat = false) :
    exec i s = .next (afterByte b 0#5 true { evt := rejectEvent s.cur.toNat, pos := s.cur } s) := by
  rw [exec_of_streamByte hb, deliverByte_of_lt _ _ _ hcur, checkByte, storedByte_buf, hv,
    if_neg Bool.false_ne_true, rejectByte_stored]

/-- An accepted header 1 at position 0 (R105). -/
theorem exec_hdr1_accepted (hb : i.streamByte = some b) (hwf : s.buf.wf = true) (hcur : s.cur = 0#5)
    (hok : hdr1Ok Config.hw b = true) :
    exec i s = .next (afterByte b 1#5 s.warn { evt := .byteAccepted } s) := by
  have h := exec_of_valid (i := i) (b := b) (s := s) hb
  rw [hcur] at h
  exact h (by decide) ((valid_stored_hdr1 _ b hwf).trans hok)

/-- A rejected header 1 at position 0 (R105). -/
theorem exec_hdr1_rejected (hb : i.streamByte = some b) (hwf : s.buf.wf = true) (hcur : s.cur = 0#5)
    (hno : hdr1Ok Config.hw b = false) :
    exec i s = .next (afterByte b 0#5 true { evt := .rejectHdr1 } s) := by
  have h := exec_of_invalid (i := i) (b := b) (s := s) hb
  rw [hcur] at h
  exact h (by decide) ((valid_stored_hdr1 _ b hwf).trans hno)

/-- An accepted header 2 at position 1 (R106). -/
theorem exec_hdr2_accepted (hb : i.streamByte = some 0x5A#8) (hwf : s.buf.wf = true) (hcur : s.cur = 1#5) :
    exec i s = .next (afterByte 0x5A#8 2#5 s.warn { evt := .byteAccepted, pos := 1#5 } s) := by
  have h := exec_of_valid (i := i) (b := 0x5A#8) (s := s) hb
  rw [hcur] at h
  exact h (by decide) (valid_stored_hdr2 _ _ hwf)

/-- Every body byte is accepted (R107). -/
theorem exec_body_accepted (hb : i.streamByte = some b) (h2 : 2 ≤ s.cur.toNat) (h22 : s.cur.toNat ≤ 22) :
    exec i s = .next (afterByte b (s.cur + 1#5) s.warn { evt := .byteAccepted, pos := s.cur } s) :=
  exec_of_valid hb (by omega) (valid_body _ _ h2 h22)

end Rows

theorem statusByte_eq_ofNat : ∀ status : BitVec 4, statusByte status = BitVec.ofNat 8 (0xF0 + status.toNat) := by
  decide

/-- Every status-flagged header is accepted (R105). -/
theorem hdr1Ok_statusByte : ∀ status : BitVec 4, hdr1Ok Config.hw (statusByte status) = true := by
  decide

/-- The bytes of HDR1_REJECT are the ones the validator rejects (R85, R105). -/
theorem hdr1Ok_of_reject_wf : ∀ h1 : Byte, (Instr.hdr1Reject h1).wf = true → hdr1Ok Config.hw h1 = false := by
  decide

theorem adjByte_eq_ofNat : ∀ (ignored7 hv hi hp : Bool) (ignored30 : BitVec 4),
    adjByte ignored7 hv hi hp ignored30 = BitVec.ofNat 8 (128 * ignored7.toNat + 64 * hv.toNat + 32 * hi.toNat +
      16 * hp.toNat + ignored30.toNat) := by
  decide

/-- Settles O24: the bytes of four rows pass the check of header 1, those of HDR1_REJECT do not. -/
theorem headerOneRowsAtPositionZero : Obligations.HeaderOneRowsAtPositionZero := by
  intro s hwf hcur
  refine ⟨exec_hdr1_accepted rfl hwf hcur rfl, exec_hdr1_accepted rfl hwf hcur rfl, fun pcer => ?_,
    fun status _ => ?_, fun h1 h => exec_hdr1_rejected rfl hwf hcur (hdr1Ok_of_reject_wf h1 h)⟩
  · cases pcer <;> exact exec_hdr1_accepted rfl hwf hcur rfl
  · rw [← statusByte_eq_ofNat]
    exact exec_hdr1_accepted rfl hwf hcur (hdr1Ok_statusByte status)

/-- Settles O25: HDR2's byte is SYNC2, and position 20 is a body position. -/
theorem headerTwoAndAdjustmentRows : Obligations.HeaderTwoAndAdjustmentRows := by
  refine ⟨fun s hwf hcur => exec_hdr2_accepted rfl hwf hcur, fun s ignored7 hv hi hp ignored30 hcur => ?_⟩
  have h := exec_body_accepted (i := .adj ignored7 hv hi hp ignored30) (s := s) rfl
  rw [hcur] at h
  rw [← adjByte_eq_ofNat]
  exact h (by decide) (by decide)

end Sys2Proof.Machine
end

section
/-!
PROOFS of the family 40_synchronizer.md: NOP and POLL (R100, R102, D11), the byte at each position (R105 to R109),
the transition table (R110), the invocation stamp (R111, R112), completion (R101), the checksum (R108).
-/

namespace Sys2Proof.Machine

/-! ### NOP and POLL -/

/-- Settles O13: NOP only responds. -/
theorem nopAnswersEventNone : Obligations.NopAnswersEventNone := fun _ => rfl

/-- The elapsed time on numbers, which never subtracts below 0 (R102). -/
theorem elapsed_toNat (now lastT : Time) :
    (elapsed now lastT).toNat = (now.toNat + 2 ^ 32 - lastT.toNat) % 2 ^ 32 := by
  rw [elapsed, BitVec.toNat_sub, ← Nat.sub_add_comm lastT.isLt.le, Nat.add_comm]

/-- The check with TIMEOUT_INCLUSIVE = true (R102). -/
theorem timeoutFired_of_inclusive {c : Params} (h : c.timeoutInclusive = true) (now lastT : Time) :
    timeoutFired c now lastT = decide (500 ≤ (elapsed now lastT).toNat) :=
  if_pos h

/-- The check with TIMEOUT_INCLUSIVE = false (R102). -/
theorem timeoutFired_of_strict {c : Params} (h : c.timeoutInclusive = false) (now lastT : Time) :
    timeoutFired c now lastT = decide (500 < (elapsed now lastT).toNat) :=
  if_neg (by simp [h])

/-- A POLL whose timeout check gives `fired`, as one update (R102). -/
theorem pollCommand_of_fired {c : Params} {now : Time} {s : State} {fired : Bool}
    (h : timeoutFired c now s.lastT = fired) :
    pollCommand c now s = { s with
      cur := if fired then 0#5 else s.cur
      invNow := now
      invFresh := true
      rsp := some { evt := if fired then .timeout else .none, warn := s.warn } } := by
  subst h
  rfl

/-- Settles O14: both readings are POLL with their own timeout check. -/
theorem pollChecksTheReceiveTimeout : Obligations.PollChecksTheReceiveTimeout := by
  intro now s
  simp only [← elapsed_toNat]
  exact ⟨congrArg Host.Outcome.next (pollCommand_of_fired (timeoutFired_of_inclusive rfl now s.lastT)),
    congrArg Host.Outcome.next (pollCommand_of_fired (timeoutFired_of_strict rfl now s.lastT))⟩

/-- The elapsed time is 500 exactly at `last_t + 500` (R102). -/
theorem elapsed_toNat_eq_timeout (now lastT : Time) :
    (elapsed now lastT).toNat = 500 ↔ now = lastT + 500#32 := by
  unfold elapsed
  bv_omega

/-- Settles O15: `500 ≤ e` and `500 < e` differ exactly at `e = 500`. -/
theorem timeoutReadingsDifferOnlyAtTheBoundary : Obligations.TimeoutReadingsDifferOnlyAtTheBoundary := by
  intro now lastT
  rw [timeoutFired_of_inclusive rfl, timeoutFired_of_strict rfl, ← elapsed_toNat_eq_timeout, Ne, decide_eq_decide]
  omega

/-! ### Commands without a byte -/

/-- Without a stream byte the cursor stays or goes back to 0 (R110). -/
theorem exec_noByte_cur {i : Instr} {s t : State} (hb : i.streamByte = none) (h : exec i s = .next t) :
    t.cur = s.cur ∨ t.cur = 0#5 := by
  obtain ⟨-, hd⟩ | ⟨now, -, hd⟩ | ⟨-, hd⟩ | ⟨-, hd⟩ := exec_of_no_streamByte hb s <;> rw [hd] at h <;> cases h
  · exact .inl rfl
  · rw [pollCommand_of_fired rfl]
    cases timeoutFired Config.hw now s.lastT
    · exact .inl rfl
    · exact .inr rfl
  · exact .inl rfl
  · exact .inl rfl

/-- Without a stream byte only POLL writes `inv_now` and `inv_fresh` (R112). -/
theorem exec_noByte_invocation {i : Instr} {s t : State} (hb : i.streamByte = none) (hi : ∀ now, i ≠ .poll now)
    (h : exec i s = .next t) : t.invNow = s.invNow ∧ t.invFresh = s.invFresh := by
  obtain ⟨-, hd⟩ | ⟨now, hpoll, -⟩ | ⟨-, hd⟩ | ⟨-, hd⟩ := exec_of_no_streamByte hb s
  case inr.inl => exact absurd hpoll (hi now)
  all_goals
    cases hd.symm.trans h
    exact ⟨rfl, rfl⟩

/-- Settles O27: a stream byte stamps as `storedByte` does, and of the others only POLL touches the invocation. -/
theorem invocationsStampTheirFirstByte : Obligations.InvocationsStampTheirFirstByte := by
  intro i s t h
  cases hb : i.streamByte with
  | none =>
    refine ⟨?_, ?_, fun hi => ?_⟩
    · simpa using congrArg State.lastT (exec_noByte_frame hb h)
    · rintro now rfl
      cases h
      exact ⟨rfl, rfl⟩
    · simpa using exec_noByte_invocation hb hi h
  | some b =>
    have ht := exec_streamByte_frame hb h
    refine ⟨?_, ?_, fun _ => ⟨?_, ?_⟩⟩
    · simpa using congrArg State.lastT ht
    · rintro now rfl
      cases hb
    · simpa using congrArg State.invNow ht
    · simpa using congrArg State.invFresh ht

/-! ### The byte at each position -/

/-- What the completion of a frame answers, whatever the decoder says (R103, R159). -/
theorem completeFrame_answers (s : State) :
    ∃ t r, completeFrame Config.hw s = .next t ∧ t.rsp = some r ∧ t.cur = 0#5 ∧ t.warn = false ∧
      (r.evt = .frameOk ∨ r.evt = .frameUncalibrated ∨ r.evt = .frameAbortStatus ∨ r.evt = .frameZeroCycle) := by
  obtain ⟨evt, info, hevt, -, hc⟩ | ⟨rec, -, hc⟩ := completeFrame_cases s
  · exact ⟨_, _, hc, rfl, rfl, rfl, .inr (hevt.imp_left And.left)⟩
  · exact ⟨_, _, hc, rfl, rfl, rfl, .inl rfl⟩

section Positions

variable {i : Instr} {b : Byte} {s t : State} {r : Response}

/-- A rejected header 2 at position 1 (R106). -/
theorem exec_hdr2_rejected (hb : i.streamByte = some b) (hwf : s.buf.wf = true) (hcur : s.cur = 1#5)
    (hne : b ≠ 0x5A#8) :
    exec i s = .next (afterByte b 0#5 true { evt := .rejectHdr2, pos := 1#5 } s) := by
  have h := exec_of_invalid (i := i) (b := b) (s := s) hb
  rw [hcur] at h
  exact h (by decide) ((valid_stored_hdr2 _ b hwf).trans (beq_false_of_ne hne))

/-- A byte at position 23 that is not the checksum (R108). -/
theorem exec_checksum_rejected (hb : i.streamByte = some b) (hwf : s.buf.wf = true) (hcur : s.cur = 23#5)
    (hne : bodyTotal s.buf % 256 ≠ b.toNat) :
    exec i s = .next (afterByte b 0#5 true { evt := .rejectChecksum, pos := 23#5 } s) := by
  have h := exec_of_invalid (i := i) (b := b) (s := s) hb
  rw [hcur] at h
  exact h (by decide) ((valid_stored_last _ b hwf).trans (decide_eq_false hne))

/-- A byte at position 23 that is the checksum completes the frame (R103, R108). -/
theorem exec_checksum_accepted (hb : i.streamByte = some b) (hwf : s.buf.wf = true) (hcur : s.cur = 23#5)
    (hsum : bodyTotal s.buf % 256 = b.toNat) : exec i s = completeFrame Config.hw (storedByte b s) := by
  have hlast : s.cur.toNat = 23 := congrArg BitVec.toNat hcur
  have hv := (valid_stored_last Config.hw b hwf).trans (decide_eq_true hsum)
  rw [exec_of_streamByte hb, deliverByte_of_lt _ _ _ (by omega), checkByte, storedByte_buf, hlast, if_pos hv,
    if_pos rfl]

/-- A byte at cursor 0 is stored at position 0 and judged as a header 1, whatever the buffer (R109). -/
theorem exec_byte_at_zero (hb : i.streamByte = some b) (hcur : s.cur = 0#5) (h : exec i s = .next t)
    (hr : t.rsp = some r) :
    r.pos = 0#5 ∧ t.buf = s.buf.write 0 b ∧ (r.evt = .byteAccepted ∨ r.evt = .rejectHdr1) := by
  have hzero : s.cur.toNat = 0 := congrArg BitVec.toNat hcur
  have hbuf : t.buf = s.buf.write s.cur.toNat b := congrArg State.buf (exec_streamByte_frame hb h)
  rw [hzero] at hbuf
  cases hv : valid Config.hw (s.buf.write s.cur.toNat b) s.cur.toNat with
  | true =>
    cases (exec_of_valid hb (by omega) hv).symm.trans h
    cases hr
    exact ⟨hcur, hbuf, .inl rfl⟩
  | false =>
    cases (exec_of_invalid hb (by omega) hv).symm.trans h
    cases hr
    exact ⟨hcur, hbuf, .inr (by simp [hzero, rejectEvent])⟩

end Positions

/-- Settles O19: the check at position 0 is that of header 1. -/
theorem headerOneDecidesAcceptance : Obligations.HeaderOneDecidesAcceptance := by
  intro b s hwf hcur
  simp only [← hdr1Ok_hw_iff_classes]
  cases hok : hdr1Ok Config.hw b with
  | true => exact exec_hdr1_accepted rfl hwf hcur hok
  | false => exact exec_hdr1_rejected rfl hwf hcur hok

/-- Settles O20: the check at position 1 is that of header 2. -/
theorem headerTwoDecidesAcceptance : Obligations.HeaderTwoDecidesAcceptance := by
  intro b s hwf hcur
  split_ifs with hb
  · subst hb
    exact exec_hdr2_accepted rfl hwf hcur
  · exact exec_hdr2_rejected rfl hwf hcur hb

/-- Settles O21: the check passes at every body position. -/
theorem bodyBytesAreAlwaysAccepted : Obligations.BodyBytesAreAlwaysAccepted :=
  fun _ _ => exec_body_accepted rfl

/-- Settles O22: the check at position 23 is that of the checksum, and a match completes the frame. -/
theorem checksumDecidesTheFrame : Obligations.ChecksumDecidesTheFrame := by
  refine fun b s hwf hcur => ⟨exec_checksum_rejected rfl hwf hcur, fun hsum => ?_⟩
  rw [exec_checksum_accepted rfl hwf hcur hsum]
  exact completeFrame_answers _

/-- Only the headers and the checksum can fail their check (R107, R109). -/
theorem position_of_invalid {c : Params} {m : Memory} {cur : BitVec 5} (hcur : cur.toNat < 24)
    (hv : valid c m cur.toNat = false) : cur = 0#5 ∨ cur = 1#5 ∨ cur = 23#5 := by
  have hbody : ¬(2 ≤ cur.toNat ∧ cur.toNat ≤ 22) := by
    rintro ⟨h2, h22⟩
    rw [valid_body c m h2 h22] at hv
    cases hv
  bv_omega

/-- Settles O23: a rejection ends at cursor 0, where only a byte moves it, and that byte is a header 1. -/
theorem rejectedByteRestartsAtHeaderOne : Obligations.RejectedByteRestartsAtHeaderOne := by
  refine fun b s hlt hv => ⟨position_of_invalid hlt hv, _, exec_of_invalid rfl hlt hv, rfl, rfl,
    fun j u v hcur hj h => ?_, fun b' u r h hr => exec_byte_at_zero rfl rfl h hr⟩
  obtain hv | hv := exec_noByte_cur hj h
  · exact hv.trans hcur
  · exact hv

/-! ### The transition table and completion -/

/-- The cursor, event and `warn` of a POLL whose elapsed time decides `fired` (R102, R110). -/
theorem table_line_of_poll {now : Time} {s t : State} {r : Response} {fired : Bool}
    (hfired : decide (500 ≤ (elapsed now s.lastT).toNat) = fired) (h : exec (.poll now) s = .next t)
    (hr : t.rsp = some r) :
    t.cur = (if fired then 0#5 else s.cur) ∧ r.evt = (if fired then .timeout else .none) ∧ t.warn = s.warn := by
  have hpoll := pollCommand_of_fired ((timeoutFired_of_inclusive (c := Config.hw) rfl now s.lastT).trans hfired)
  cases (congrArg Host.Outcome.next hpoll).symm.trans h
  cases hr
  exact ⟨rfl, rfl, rfl⟩

/-- The cursor, event and `warn` of a stream byte that commits nothing. -/
theorem table_line_of_afterByte {i : Instr} {b : Byte} {s t : State} {r r' : Response} {cur : BitVec 5}
    {warn : Bool} (hd : exec i s = .next (afterByte b cur warn r' s)) (h : exec i s = .next t)
    (hr : t.rsp = some r) : t.cur = cur ∧ r.evt = r'.evt ∧ t.warn = warn := by
  cases hd.symm.trans h
  cases hr
  exact ⟨rfl, rfl, rfl⟩

/-- Settles O26: the lines of the commands are their updates, those of a byte the lemmas of its position. -/
theorem cursorFollowsTheTransitionTable : Obligations.CursorFollowsTheTransitionTable := by
  intro i s t r hwf h hr
  refine ⟨?_, ?_, ?_, ?_, ?_, fun b hb => ?_⟩
  · rintro now rfl hfired
    exact table_line_of_poll (decide_eq_true hfired) h hr
  · rintro now rfl hnot
    exact table_line_of_poll (decide_eq_false hnot.not_ge) h hr
  · rintro rfl
    cases h; cases hr
    exact ⟨rfl, rfl, rfl⟩
  · rintro rfl
    cases h; cases hr
    exact ⟨rfl, rfl, rfl⟩
  · rintro (⟨op, rfl⟩ | ⟨op, rfl⟩) <;> cases h <;> cases hr <;> exact ⟨rfl, rfl, rfl⟩
  · have line {cur : BitVec 5} {warn : Bool} {r' : Response}
        (hd : exec i s = .next (afterByte b cur warn r' s)) : t.cur = cur ∧ r.evt = r'.evt ∧ t.warn = warn :=
      table_line_of_afterByte hd h hr
    simp only [← hdr1Ok_hw_iff_classes, Bool.not_eq_true]
    refine ⟨fun hcur hok => line (exec_hdr1_accepted hb hwf hcur hok),
      fun hcur hno => line (exec_hdr1_rejected hb hwf hcur hno), fun hcur hok => ?_,
      fun hcur hno => line (exec_hdr2_rejected hb hwf hcur hno),
      fun h2 h22 => line (exec_body_accepted hb h2 h22), fun hcur hsum => ?_,
      fun hcur hsum => line (exec_checksum_rejected hb hwf hcur hsum)⟩
    · subst hok
      exact line (exec_hdr2_accepted hb hwf hcur)
    · rw [exec_checksum_accepted hb hwf hcur hsum] at h
      obtain ⟨t', r', hc, hr', hcur', hwarn, hevt⟩ := completeFrame_answers (storedByte b s)
      cases hc.symm.trans h
      cases hr'.symm.trans hr
      exact ⟨hcur', hwarn, hevt⟩

/-- Settles O32: every command without a byte responds, and so does every end of a stream byte in the frame. -/
theorem everyCommandCompletes : Obligations.EveryCommandCompletes := by
  intro i s hcur
  cases hb : i.streamByte with
  | none =>
    obtain ⟨-, hd⟩ | ⟨now, -, hd⟩ | ⟨-, hd⟩ | ⟨-, hd⟩ := exec_of_no_streamByte hb s <;> exact ⟨_, _, hd, rfl⟩
  | some b =>
    rw [exec_of_streamByte hb]
    obtain ⟨-, hd⟩ | ⟨-, -, hd⟩ | ⟨-, -, hd⟩ := deliverByte_cases b s hcur
    · exact ⟨_, _, hd, rfl⟩
    · exact ⟨_, _, hd, rfl⟩
    · obtain ⟨t, r, hc, hr, -⟩ := completeFrame_answers (storedByte b s)
      exact ⟨t, r, hd.trans hc, hr⟩

/-! ### The checksum as a sum of bytes -/

/-- The sum of the body bytes modulo 256, as a byte (R108). -/
def bodyByteSum (m : Memory) : Byte := ∑ k ∈ Finset.Icc 2 22, m.read k

/-- The low 8 bits of the exact sum are the sum of bytes. -/
theorem bodyByteSum_toNat (m : Memory) : (bodyByteSum m).toNat = bodyTotal m % 256 := by
  have hsum : bodyByteSum m = BitVec.ofNat 8 (bodyTotal m) := by
    rw [← BitVec.natCast_eq_ofNat, bodyTotal, bodyByteSum, Nat.cast_sum]
    refine Finset.sum_congr rfl fun k _ => ?_
    rw [BitVec.natCast_eq_ofNat, BitVec.ofNat_toNat, BitVec.setWidth_eq]
  rw [hsum, BitVec.toNat_ofNat]

/-- The checksum compares byte 23 with the sum of the body bytes (R83, R108). -/
theorem checksumOk_eq (m : Memory) : checksumOk m = decide (bodyByteSum m = m.read 23) := by
  rw [checksumOk, bodySum_eq_bodyTotal, ← bodyByteSum_toNat, Bool.beq_eq_decide_eq]
  exact decide_eq_decide.2 BitVec.toNat_inj

section Checksum

variable {m : Memory} {j k : Nat}

/-- A store at a body position moves the sum by the change of that byte (R108). -/
theorem bodyByteSum_write (b : Byte) (hwf : m.wf = true) (h2 : 2 ≤ k) (h22 : k ≤ 22) :
    bodyByteSum (m.write k b) = bodyByteSum m - m.read k + b := by
  have hk : k ∈ Finset.Icc 2 22 := Finset.mem_Icc.2 ⟨h2, h22⟩
  have hread : (m.write k b).read = Function.update m.read k b :=
    funext fun a => (Memory.read_write b hwf).trans (Function.update_apply m.read k b a).symm
  rw [bodyByteSum, hread, Finset.sum_update_of_mem hk, bodyByteSum,
    Finset.sum_sdiff_eq_sub (Finset.singleton_subset_iff.2 hk), Finset.sum_singleton, add_comm]

/-- A store at position 23 keeps the sum. -/
theorem bodyByteSum_write_last (m : Memory) (b : Byte) : bodyByteSum (m.write 23 b) = bodyByteSum m := by
  apply BitVec.eq_of_toNat_eq
  rw [bodyByteSum_toNat, bodyByteSum_toNat, bodyTotal_write_last]

/-- Changing one checked byte breaks a checksum that matches (R108). -/
theorem checksumOk_write_of_ne {b : Byte} (hwf : m.wf = true) (hok : checksumOk m = true) (h2 : 2 ≤ k)
    (h23 : k ≤ 23) (hb : b ≠ m.read k) : checksumOk (m.write k b) = false := by
  rw [checksumOk_eq, decide_eq_true_eq] at hok
  rw [checksumOk_eq, decide_eq_false_iff_not]
  obtain rfl | h22 : k = 23 ∨ k ≤ 22 := by omega
  · rw [bodyByteSum_write_last, Memory.read_write_same b hwf, hok]
    exact hb.symm
  · rw [bodyByteSum_write b hwf h2 h22, Memory.read_write_other b (by omega), ← hok]
    intro heq
    exact hb (by linear_combination heq)

/-- Two stores at body positions that keep the sum of the two bytes keep the result (R108). -/
theorem checksumOk_write_write {x y : Byte} (hwf : m.wf = true) (hj2 : 2 ≤ j) (hj22 : j ≤ 22) (hk2 : 2 ≤ k)
    (hk22 : k ≤ 22) (hread : (m.write j x).read k = m.read k) (hsum : x + y = m.read j + m.read k) :
    checksumOk ((m.write j x).write k y) = checksumOk m := by
  have hwf' : (m.write j x).wf = true := Memory.write_wf x hwf (by omega)
  have hbody : bodyByteSum ((m.write j x).write k y) = bodyByteSum m := by
    rw [bodyByteSum_write y hwf' hk2 hk22, bodyByteSum_write x hwf hj2 hj22, hread]
    linear_combination hsum
  rw [checksumOk_eq, checksumOk_eq, hbody, Memory.read_write_other y (by omega),
    Memory.read_write_other x (by omega)]

end Checksum

/-- Settles O33: a swap and a moved difference both keep the sum of the two bytes. -/
theorem checksumDetectsOneByteAndNotASwap : Obligations.ChecksumDetectsOneByteAndNotASwap := by
  refine fun m hwf => ⟨fun hok k b => checksumOk_write_of_ne hwf hok, fun j k hj2 hj22 hk2 hk22 => ?_,
    fun j k d hj2 hj22 hk2 hk22 hne => ?_⟩
  · refine checksumOk_write_write hwf hj2 hj22 hk2 hk22 ?_ (add_comm _ _)
    rw [Memory.read_write _ hwf]
    split_ifs <;> rfl
  · exact checksumOk_write_write hwf hj2 hj22 hk2 hk22 (Memory.read_write_other _ hne.symm) (by ring)

end Sys2Proof.Machine
end

section
/-!
PROOFS of the family 41_decode.md: the headers of a completed frame (R141, R142), the converted quantities (R146 to
R158), the outcome of `decode` (R159, R160), the samples by presence (R161).
-/

namespace Sys2Proof.Machine

/-! ### Bounds of the quotients -/

/-- Settles O41: the least quotient, 1 / (2^24 - 1), is above the least positive number. -/
theorem nonzeroQuotientsStayNonzero : Obligations.NonzeroQuotientsStayNonzero := by
  intro coef cyc hcoef hcyc
  have pos_of_ne {x : Raw24} (h : x ≠ 0#24) : 0 < x.toNat :=
    Nat.pos_of_ne_zero fun h0 => h (BitVec.eq_of_toNat_eq h0)
  exact numOfRatio_ne_zero (pos_of_ne hcoef) (pos_of_ne hcyc) cyc.isLt

/-- The sign bit of a finite non-negative pattern, and of +infinity (R12). -/
theorem msb_of_lt_infinity {x : Numeric} (h : x.toNat < infinityBits) : x.msb = false :=
  BitVec.msb_eq_false_iff_two_mul_lt.2 (by simp only [infinityBits] at h; omega)

/-- The pattern of 2^24. -/
theorem numValue_two_pow_24 : numValue 0x4B800000#32 = 2 ^ 24 := by
  rw [numValue_of_lt (by decide), show magUnits (0x4B800000#32).toNat = 2 ^ 24 * unitsPerOne by decide +kernel,
    Nat.cast_mul, mul_div_assoc, div_self (by positivity), mul_one, Nat.cast_pow, Nat.cast_ofNat]

/-- Settles O40: a converted quantity is a pattern from +0.0 to that of 2^24, and these have no sign. -/
theorem convertedQuantitiesAreNotNegative : Obligations.ConvertedQuantitiesAreNotNegative := by
  intro m r h x hx
  obtain ⟨hv, hi, hp⟩ := decodeFrame_ok_le h
  have hle : x.toNat ≤ (0x4B800000#32).toNat := by
    obtain rfl | rfl | rfl := hx
    · exact hv
    · exact hi
    · exact hp
  have hfin : x.toNat < infinityBits := hle.trans_lt (by decide)
  refine ⟨msb_of_lt_infinity hfin, hfin, ?_, numValue_two_pow_24 ▸ numValue_mono hle (by decide)⟩
  rw [numValue_of_lt hfin]
  positivity

/-! ### Header 1 of a completed frame -/

/-- The status-flagged headers as R85 lists them. -/
theorem statusFlagged_iff_le (x : Byte) : statusFlagged x = true ↔ 0xF0 ≤ x.toNat := by
  rw [statusFlagged_iff]
  omega

/-- ABORT_MASK on the whole byte (R142). -/
theorem abortBits_eq_ofNat : ∀ x : Byte, abortBits x = BitVec.ofNat 4 (x.toNat &&& 0x0D) := by
  decide

theorem abortBits_eq_zero_iff : ∀ x : Byte, abortBits x = 0#4 ↔ x.toNat &&& 0x0D = 0 := by
  decide

/-- PCER on the whole byte (R86, R142). -/
theorem pcerOf_iff : ∀ x : Byte, pcerOf x = true ↔ 0xF0 ≤ x.toNat ∧ x.toNat &&& 2 ≠ 0 := by
  decide

section Header

variable {m : Memory}

/-- R141, R143: the sentinel is tested first. -/
theorem decodeFrame_of_sentinel (h : m.read 0 = 0xAA#8) : decodeFrame Config.hw m = .uncalibrated :=
  if_pos h

/-- R142: an abort bit of a status-flagged header. -/
theorem decodeFrame_of_abortBits (hflag : 0xF0 ≤ (m.read 0).toNat) (habort : (m.read 0).toNat &&& 0x0D ≠ 0) :
    decodeFrame Config.hw m = .abortStatus (BitVec.ofNat 4 ((m.read 0).toNat &&& 0x0D)) := by
  have hsent : m.read 0 ≠ 0xAA#8 := fun h => absurd hflag (by rw [h]; decide)
  have hbits : abortBits (m.read 0) ≠ 0#4 := (abortBits_eq_zero_iff _).not.2 habort
  rw [← abortBits_eq_ofNat]
  simp [decodeFrame, hsent, hbits, (statusFlagged_iff_le _).2 hflag]

/-- R142, R143: any other header lets decoding continue. -/
theorem decodeFrame_of_continues (hsent : (m.read 0).toNat ≠ 0xAA)
    (habort : 0xF0 ≤ (m.read 0).toNat → (m.read 0).toNat &&& 0x0D = 0) :
    decodeFrame Config.hw m = convertFields (pcerOf (m.read 0)) (extractFields m) := by
  have hne : m.read 0 ≠ 0xAA#8 := fun h => hsent (by rw [h]; rfl)
  have hgo : ¬(statusFlagged (m.read 0) && abortBits (m.read 0) != 0#4) = true := by
    rw [Bool.and_eq_true, statusFlagged_iff_le, bne_iff_ne, ne_eq, abortBits_eq_zero_iff]
    exact fun h => h.2 (habort h.1)
  exact (if_neg hne).trans (if_neg hgo)

end Header

/-! ### The conversion of the fields -/

/-- The voltage divides by zero (R147, R155). -/
def VoltageZeroCycle (f : Fields) : Prop := f.hv = true ∧ f.vcyc.toNat = 0

/-- The power divides by zero: under PCER it does not divide (R148, R155). -/
def PowerZeroCycle (pcer : Bool) (f : Fields) : Prop := f.hp = true ∧ pcer = false ∧ f.pcyc.toNat = 0

/-- The power is present and not +0.0 (R148, R151). -/
def PowerNonzero (pcer : Bool) (f : Fields) : Prop := f.hp = true ∧ pcer = false ∧ f.pcoef.toNat ≠ 0

/-- The current divides by zero: it divides only where the power is not +0.0 (R149 to R153, R155). -/
def CurrentZeroCycle (pcer : Bool) (f : Fields) : Prop :=
  f.hi = true ∧ PowerNonzero pcer f ∧ f.ccyc.toNat = 0

/-- The voltage of a frame that is not discarded (R147). -/
def voltageValue (f : Fields) : Numeric := if f.hv then fl f.vcoef.toNat f.vcyc.toNat else 0#32

/-- The power of a frame that is not discarded (R148). -/
def powerValue (pcer : Bool) (f : Fields) : Numeric :=
  if f.hp = true ∧ pcer = false then fl f.pcoef.toNat f.pcyc.toNat else 0#32

/-- A quotient by a zero or a non-zero cycle field. -/
theorem convertRatio_eq (w : ZeroCycle) (coef cyc : Raw24) :
    convertRatio w coef cyc = if cyc.toNat = 0 then .zero w else .value (fl coef.toNat cyc.toNat) :=
  if_congr (BitVec.toNat_inj (y := 0#24)).symm rfl rfl

theorem fl_zero {d : Nat} (hd : 0 < d) : fl 0 d = 0#32 :=
  BitVec.eq_of_toNat_eq ((fl_toNat 0 d).trans (flMag_exact hd (by simp [magUnits_zero]) (Nat.zero_le _)))

section Fields

variable {pcer : Bool} {f : Fields}

theorem convertVoltage_of_zero (h : VoltageZeroCycle f) : convertVoltage f = .zero .voltage := by
  obtain ⟨hv, hcyc⟩ := h
  rw [convertVoltage, if_pos hv, convertRatio_eq, if_pos hcyc]

theorem convertVoltage_of_value (h : ¬VoltageZeroCycle f) : convertVoltage f = .value (voltageValue f) := by
  unfold convertVoltage voltageValue
  split_ifs with hv
  · rw [convertRatio_eq, if_neg fun hcyc => h ⟨hv, hcyc⟩]
  · rfl

theorem convertPower_of_zero (h : PowerZeroCycle pcer f) : convertPower pcer f = .zero .power := by
  obtain ⟨hp, rfl, hcyc⟩ := h
  rw [convertPower, if_pos hp, if_neg Bool.false_ne_true, convertRatio_eq, if_pos hcyc]

theorem convertPower_of_value (h : ¬PowerZeroCycle pcer f) :
    convertPower pcer f = .value (powerValue pcer f) := by
  cases hp : f.hp with
  | false => simp [convertPower, powerValue, hp]
  | true =>
    cases pcer with
    | true => simp [convertPower, powerValue, hp]
    | false =>
      have hcyc : f.pcyc.toNat ≠ 0 := fun h0 => h ⟨hp, rfl, h0⟩
      simp [convertPower, powerValue, hp, convertRatio_eq, hcyc]

/-- A present power is +0.0 only by PCER or a zero coefficient (R151). -/
theorem powerValue_ne_zero_iff (h : ¬PowerZeroCycle pcer f) :
    f.hp = true ∧ powerValue pcer f ≠ 0#32 ↔ PowerNonzero pcer f := by
  unfold powerValue PowerNonzero
  refine and_congr_right fun hp => ?_
  cases pcer with
  | true => simp
  | false =>
    have hcyc : 0 < f.pcyc.toNat := Nat.pos_of_ne_zero fun h0 => h ⟨hp, rfl, h0⟩
    rw [if_pos ⟨hp, rfl⟩, eq_self, true_and]
    refine ⟨fun hne h0 => hne ?_, fun h0 => numOfRatio_ne_zero (Nat.pos_of_ne_zero h0) hcyc f.pcyc.isLt⟩
    rw [h0]
    exact fl_zero hcyc

/-- The current is divided with a power that is not +0.0 (R153). -/
theorem convertCurrent_of_divides {p : Numeric} (hi : f.hi = true) (hp : f.hp = true) (hp0 : p ≠ 0#32) :
    convertCurrent p f =
      if f.ccyc.toNat = 0 then .zero .current else .value (fl f.ccoef.toNat f.ccyc.toNat, false) := by
  rw [convertCurrent, if_pos hi, if_neg (by simp [hp]), if_pos (by simp [hp, hp0]), convertRatio_eq]
  split_ifs <;> rfl

/-- Any other current is +0.0, with the extra power sample exactly for voltage and current without power (R149 to
R152). -/
theorem convertCurrent_of_not_divides {p : Numeric} (h : f.hi = true → f.hp = true → p = 0#32) :
    convertCurrent p f = .value (0#32, f.hi && f.hv && !f.hp) := by
  unfold convertCurrent
  cases hi : f.hi with
  | false => rfl
  | true =>
    cases hp : f.hp with
    | false => cases f.hv <;> rfl
    | true => simp [h hi hp]

/-- Without power, or with a power of +0.0, the current is +0.0 (R149 to R152). -/
theorem convertCurrent_eq_plusZero {p i : Numeric} {p0 : Bool} (h : convertCurrent p f = .value (i, p0))
    (hzero : p = 0#32 ∨ f.hp = false) : i = 0#32 := by
  have hp (_ : f.hi = true) (hp : f.hp = true) : p = 0#32 := hzero.resolve_right (by simp [hp])
  cases (convertCurrent_of_not_divides hp).symm.trans h
  rfl

/-- The first divisor (R158). -/
theorem convertFields_of_voltageZeroCycle (h : VoltageZeroCycle f) :
    convertFields pcer f = .zeroCycle .voltage := by
  simp only [convertFields, convertVoltage_of_zero h]

/-- The second divisor (R158). -/
theorem convertFields_of_powerZeroCycle (hv : ¬VoltageZeroCycle f) (h : PowerZeroCycle pcer f) :
    convertFields pcer f = .zeroCycle .power := by
  simp only [convertFields, convertVoltage_of_value hv, convertPower_of_zero h]

/-- The third divisor (R158). -/
theorem convertFields_of_currentZeroCycle (hv : ¬VoltageZeroCycle f) (hp : ¬PowerZeroCycle pcer f)
    (h : CurrentZeroCycle pcer f) : convertFields pcer f = .zeroCycle .current := by
  obtain ⟨hi, hpn, hcyc⟩ := h
  obtain ⟨hpres, hp0⟩ := (powerValue_ne_zero_iff hp).2 hpn
  simp only [convertFields, convertVoltage_of_value hv, convertPower_of_value hp,
    convertCurrent_of_divides hi hpres hp0, if_pos hcyc]

/-- The current of a frame that is not discarded (R149 to R153). -/
def currentValue (pcer : Bool) (f : Fields) : Numeric :=
  if f.hi = true ∧ f.hp = true ∧ powerValue pcer f ≠ 0#32 then fl f.ccoef.toNat f.ccyc.toNat else 0#32

theorem convertCurrent_of_value (hp : ¬PowerZeroCycle pcer f) (h : ¬CurrentZeroCycle pcer f) :
    convertCurrent (powerValue pcer f) f = .value (currentValue pcer f, f.hi && f.hv && !f.hp) := by
  unfold currentValue
  split_ifs with hdiv
  · obtain ⟨hi, hpres, hp0⟩ := hdiv
    have hcyc : f.ccyc.toNat ≠ 0 := fun h0 => h ⟨hi, (powerValue_ne_zero_iff hp).1 ⟨hpres, hp0⟩, h0⟩
    rw [convertCurrent_of_divides hi hpres hp0, if_neg hcyc, hpres, Bool.not_true, Bool.and_false]
  · exact convertCurrent_of_not_divides fun hi hpres => by_contra fun hp0 => hdiv ⟨hi, hpres, hp0⟩

/-- No divisor is zero: the record of steps 4 to 7 (R140). -/
theorem convertFields_of_value (hv : ¬VoltageZeroCycle f) (hp : ¬PowerZeroCycle pcer f)
    (hi : ¬CurrentZeroCycle pcer f) :
    convertFields pcer f = .ok {
      hv := f.hv, v := voltageValue f, hi := f.hi, i := currentValue pcer f, hp := f.hp,
      p := powerValue pcer f, p0 := f.hi && f.hv && !f.hp, pcer := pcer, pcoef := f.pcoef, cf := f.cf } := by
  simp only [convertFields, convertVoltage_of_value hv, convertPower_of_value hp, convertCurrent_of_value hp hi]

end Fields

/-- PCER for the three headers that let decoding continue, other than the sentinel (R85, R142). -/
theorem pcerOf_of_continues {h1 : Byte} (h : h1 = 0x55#8 ∨ h1 = 0xF0#8 ∨ h1 = 0xF2#8) :
    pcerOf h1 = decide (h1 = 0xF2#8) := by
  obtain rfl | rfl | rfl := h <;> rfl

/-- Settles O37: the header lets decoding continue, and the fields are converted in the order of R158. -/
theorem decodeConvertsPresentQuantities : Obligations.DecodeConvertsPresentQuantities := by
  intro m h
  have hdec : decodeFrame Config.hw m = convertFields (decide (m.read 0 = 0xF2#8)) (extractFields m) := by
    rw [← pcerOf_of_continues h]
    obtain h | h | h := h <;> exact decodeFrame_of_continues (by rw [h]; decide) (by rw [h]; decide)
  rw [hdec]
  intro adj hv hi hp pcer vzero pzero pnonzero czero
  refine ⟨convertFields_of_voltageZeroCycle (f := extractFields m),
    convertFields_of_powerZeroCycle (f := extractFields m),
    convertFields_of_currentZeroCycle (f := extractFields m), fun hnv hnp hnc => ?_⟩
  have hdiv : hi = true ∧ hp = true ∧ powerValue pcer (extractFields m) ≠ 0#32 ↔ hi = true ∧ pnonzero :=
    and_congr_right fun _ => powerValue_ne_zero_iff (f := extractFields m) hnp
  have hextra : (hi && hv && !hp) = true ↔ hi = true ∧ hv = true ∧ hp = false := by simp [and_assoc]
  refine ⟨_, convertFields_of_value (f := extractFields m) hnv hnp hnc,
    rfl, rfl, rfl, rfl, rfl, rfl, rfl, rfl, fun h1 h2 h3 => ⟨?_, hextra.2 ⟨h1, h2, h3⟩⟩,
    fun h1 hpn => ⟨if_pos (hdiv.2 ⟨h1, hpn⟩), ?_⟩,
    fun hno hnd => ⟨if_neg (hdiv.not.2 hnd), Bool.eq_false_iff.2 (hextra.not.2 hno)⟩⟩
  · exact if_neg fun ⟨_, hpres, _⟩ => Bool.false_ne_true (h3.symm.trans hpres)
  · exact Bool.eq_false_iff.2 fun h => Bool.false_ne_true ((hextra.1 h).2.2.symm.trans hpn.1)

/-! ### The end of a completed frame -/

/-- A decode of the fields gives a zero divisor or a record (R140). -/
theorem convertFields_cases (pcer : Bool) (f : Fields) :
    (∃ w, convertFields pcer f = .zeroCycle w) ∨ ∃ r, convertFields pcer f = .ok r := by
  by_cases hv : VoltageZeroCycle f
  · exact .inl ⟨_, convertFields_of_voltageZeroCycle hv⟩
  by_cases hp : PowerZeroCycle pcer f
  · exact .inl ⟨_, convertFields_of_powerZeroCycle hv hp⟩
  by_cases hi : CurrentZeroCycle pcer f
  · exact .inl ⟨_, convertFields_of_currentZeroCycle hv hp hi⟩
  · exact .inr ⟨_, convertFields_of_value hv hp hi⟩

section Completed

variable {b : Byte} {s : State}

theorem storedByte_buf_of_completes (h : CompletesFrame b s) : (storedByte b s).buf = s.buf.write 23 b := by
  obtain ⟨-, hcur, -⟩ := h
  rw [storedByte_buf, hcur]
  rfl

/-- A completed frame with the sentinel is discarded (R141, R159). -/
theorem exec_of_uncalibrated (h : CompletesFrame b s)
    (hd : decodeFrame Config.hw (s.buf.write 23 b) = .uncalibrated) :
    exec (.byte b) s = .next (afterByte b 0#5 false { evt := .frameUncalibrated, pos := 23#5 } s) := by
  rw [← storedByte_buf_of_completes h] at hd
  rw [execByte_completes h, completeFrame_of_uncalibrated hd, discardFrame_stored]

/-- A completed frame with abort bits is discarded, `info` giving the bits (R142, R159). -/
theorem exec_of_abortStatus {bits : BitVec 4} (h : CompletesFrame b s)
    (hd : decodeFrame Config.hw (s.buf.write 23 b) = .abortStatus bits) :
    exec (.byte b) s =
      .next (afterByte b 0#5 false { evt := .frameAbortStatus, pos := 23#5, info := bits } s) := by
  rw [← storedByte_buf_of_completes h] at hd
  rw [execByte_completes h, completeFrame_of_abortStatus hd, discardFrame_stored]

/-- A completed frame with a zero divisor is discarded, `info` giving the divisor (R155, R158, R159). -/
theorem exec_of_zeroCycle {w : ZeroCycle} (h : CompletesFrame b s)
    (hd : decodeFrame Config.hw (s.buf.write 23 b) = .zeroCycle w) :
    exec (.byte b) s =
      .next (afterByte b 0#5 false { evt := .frameZeroCycle, pos := 23#5, info := zeroCycleInfo w } s) := by
  rw [← storedByte_buf_of_completes h] at hd
  rw [execByte_completes h, completeFrame_of_zeroCycle hd, discardFrame_stored]

/-- A completed frame that decodes to a record is committed (R159, R160). -/
theorem exec_of_decoded {rec : DecodeRecord} (h : CompletesFrame b s)
    (hd : decodeFrame Config.hw (s.buf.write 23 b) = .ok rec) :
    exec (.byte b) s = .next (commitFrame rec (storedByte b s)) := by
  rw [← storedByte_buf_of_completes h] at hd
  rw [execByte_completes h, completeFrame_of_ok hd]

/-- Only a committed frame answers EV_FRAME_OK (R159). -/
theorem decoded_of_frameOk {t : State} {r : Response} (h : CompletesFrame b s) (hx : exec (.byte b) s = .next t)
    (hr : t.rsp = some r) (hevt : r.evt = .frameOk) :
    ∃ rec, decodeFrame Config.hw (s.buf.write 23 b) = .ok rec ∧ t = commitFrame rec (storedByte b s) := by
  rw [execByte_completes h] at hx
  obtain ⟨evt, info, he, -, hc⟩ | ⟨rec, hd, hc⟩ := completeFrame_cases (storedByte b s) <;>
    cases hc.symm.trans hx
  · cases hr
    obtain ⟨rfl, -⟩ | rfl | rfl := he <;> cases hevt
  · exact ⟨rec, storedByte_buf_of_completes h ▸ hd, rfl⟩

end Completed

/-- Settles O35: the sentinel is tested first, and the store at position 23 leaves header 1 alone. -/
theorem uncalibratedFrameIsDiscarded : Obligations.UncalibratedFrameIsDiscarded := by
  intro b s h h0
  refine exec_of_uncalibrated h (decodeFrame_of_sentinel ?_)
  rw [Memory.read_write_other b (by decide), h0]

/-- Settles O36: an abort bit ends the decode, and without one the fields are converted under the header's PCER. -/
theorem statusHeaderAbortsOrSetsPcer : Obligations.StatusHeaderAbortsOrSetsPcer := by
  intro b s h
  have h0 : (s.buf.write 23 b).read 0 = s.buf.read 0 := Memory.read_write_other b (by decide)
  rw [← h0]
  refine ⟨fun hflag habort => exec_of_abortStatus h (decodeFrame_of_abortBits hflag habort), fun hsent hgo => ?_⟩
  have hdec := decodeFrame_of_continues hsent hgo
  obtain ⟨w, hw⟩ | ⟨rec, hrec⟩ := convertFields_cases (pcerOf ((s.buf.write 23 b).read 0))
    (extractFields (s.buf.write 23 b))
  · exact ⟨_, _, exec_of_zeroCycle h (hdec.trans hw), rfl, .inr rfl, nofun⟩
  · refine ⟨_, _, exec_of_decoded h (hdec.trans hrec), rfl, .inl rfl, fun _ => ?_⟩
    obtain ⟨-, -, -, hpcer, -⟩ := convertFields_ok hrec
    exact (congrArg (· = true) hpcer).to_iff.trans (pcerOf_iff _)

/-! ### The quantities of a committed frame -/

/-- R152: the extra power sample in a decoded frame. -/
theorem decodeFrame_ok_p0 {c : Params} {m : Memory} {r : DecodeRecord} (h : decodeFrame c m = .ok r) :
    r.p0 = (r.hi && r.hv && !r.hp) := by
  obtain ⟨hv, hi, hp, -, -, -, -, -, hcur⟩ := convertFields_ok (decodeFrame_ok h)
  rw [convertCurrent_p0 hcur, hv, hi, hp]

/-- R149 to R152: a decoded frame without power, or with a power of +0.0, has a current of +0.0. -/
theorem decodeFrame_ok_i {c : Params} {m : Memory} {r : DecodeRecord} (h : decodeFrame c m = .ok r)
    (hzero : r.p = 0#32 ∨ r.hp = false) : r.i = 0#32 := by
  obtain ⟨-, -, hp, -, -, -, -, -, hcur⟩ := convertFields_ok (decodeFrame_ok h)
  exact convertCurrent_eq_plusZero hcur (hp ▸ hzero)

/-- A decoded frame adds at most one power sample (R161). -/
theorem commitRegs_accP_of_decoded {c : Params} {m : Memory} {r : DecodeRecord} (h : decodeFrame c m = .ok r)
    (s : State) : (commitRegs r s).accP =
      if r.hp then accAdd r.p s.accP else if r.p0 then accAdd plusZero s.accP else s.accP := by
  have hp0 := decodeFrame_ok_p0 h
  cases hp : r.hp with
  | false => simp [hp]
  | true => simp [hp, hp0]

/-- Settles O38: one lemma per outcome; a commit adds one power sample at most. -/
theorem decodeOutcomeDecidesTheFrame : Obligations.DecodeOutcomeDecidesTheFrame := by
  intro b s h
  refine ⟨exec_of_uncalibrated h, fun _ => exec_of_abortStatus h, exec_of_zeroCycle h, exec_of_zeroCycle h,
    exec_of_zeroCycle h, fun r hd => ?_⟩
  rw [exec_of_decoded h hd, commitFrame_stored, commitRegs_accP_of_decoded hd]
  rfl

/-- The count after an optional sample (R185). -/
theorem cnt_ite_accAdd (present : Bool) (x : Numeric) (a : Acc) :
    (if present then accAdd x a else a).cnt = a.cnt + if present then 1#32 else 0#32 := by
  cases present with
  | false => exact (BitVec.add_zero _).symm
  | true => rfl

/-- R146: the presence bits of a decoded frame are those of byte 20. -/
theorem decodeFrame_ok_presence {c : Params} {m : Memory} {r : DecodeRecord} (h : decodeFrame c m = .ok r) :
    (m.read 20).getLsbD 6 = r.hv ∧ (m.read 20).getLsbD 5 = r.hi ∧ (m.read 20).getLsbD 4 = r.hp := by
  obtain ⟨hv, hi, hp, -⟩ := convertFields_ok (decodeFrame_ok h)
  exact ⟨hv.symm, hi.symm, hp.symm⟩

/-- The power accumulator after a decoded frame, with the sample of R161. -/
theorem commitRegs_accP_eq_sample {c : Params} {m : Memory} {r : DecodeRecord} (h : decodeFrame c m = .ok r)
    (s : State) : (commitRegs r s).accP =
      if r.hp || (r.hv && r.hi) then accAdd (if r.hp then r.p else plusZero) s.accP else s.accP := by
  rw [commitRegs_accP_of_decoded h, decodeFrame_ok_p0 h, Bool.and_comm r.hi]
  cases r.hp <;> simp

/-- Settles O39: EV_FRAME_OK means a commit, whose samples are `accAdd` where the record says present. -/
theorem presencePatternDecidesTheSamples : Obligations.PresencePatternDecidesTheSamples := by
  intro b s t r h hx hr hevt adj hv hi hp
  obtain ⟨rec, hd, rfl⟩ := decoded_of_frameOk h hx hr hevt
  have hpres := decodeFrame_ok_presence hd
  rw [Memory.read_write_other b (by decide)] at hpres
  change hv = rec.hv ∧ hi = rec.hi ∧ hp = rec.hp at hpres
  clear_value hv hi hp
  obtain ⟨rfl, rfl, rfl⟩ := hpres
  rw [commitFrame_stored] at hr ⊢
  cases hr
  refine ⟨cnt_ite_accAdd .., cnt_ite_accAdd .., ?_, ?_, fun hv => ?_, fun hi => ?_, fun hp => ?_,
    fun hp hv hi => ⟨?_, decodeFrame_ok_i hd (.inr hp)⟩, fun _ => decodeFrame_ok_i hd⟩
  · exact (congrArg Acc.cnt (commitRegs_accP_eq_sample hd s)).trans (cnt_ite_accAdd ..)
  · rw [commitRegs_energy]
    cases rec.hp <;> simp
  · simp [hv, commitResponse]
  · simp [hi, commitResponse]
  · simp [commitRegs_accP_eq_sample hd, hp, commitResponse, -commitRegs_accP]
  · simp [commitRegs_accP_eq_sample hd, hp, hv, hi, -commitRegs_accP]

end Sys2Proof.Machine
end

section
/-!
PROOFS of the family 42_energy_accumulate.md: the energy step (R180 to R184), the counts (R185, R186), the drains and
PUBLISH (R187, R188, R190).
-/

namespace Sys2Proof.Machine

/-! ### The energy step -/

/-- The difference on numbers: modulo 65536 whether or not the counter wrapped (R181, R182). -/
theorem pulseDiff_toNat (e : Energy) (cf : Raw16) :
    (pulseDiff e cf).toNat =
      if e.pulseValid then (cf.toNat + 65536 - e.pulseLast.toNat) % 65536 else 0 := by
  have hcf := cf.isLt
  have hlast := e.pulseLast.isLt
  unfold pulseDiff
  cases e.pulseValid with
  | false => rfl
  | true =>
    rw [if_neg (by simp), if_pos rfl]
    split_ifs with hwrap
    · rw [BitVec.toNat_ofNat, Config.pulseWrap]
      omega
    · rw [BitVec.toNat_ofNat]
      omega

/-- Settles O42: the increment takes the difference as the number `pulseDiff_toNat` gives. -/
theorem energyStepFollowsTheRule : Obligations.EnergyStepFollowsTheRule := by
  intro pcoef cf e diff inc
  have hdiff : (pulseDiff e cf).toNat = diff := pulseDiff_toNat e cf
  have hinc : energyIncrement (pulseDiff e cf) pcoef = inc := by
    rw [energyIncrement, hdiff]
    rfl
  exact ⟨hdiff, hinc, hinc ▸ rfl⟩

/-! ### The increment without a difference or a coefficient -/

theorem numMul_plusZero_left {y : Numeric} (hy : y.toNat < infinityBits) : numMul plusZero y = plusZero := by
  rw [numMul_eq_fl (by decide) hy, BitVec.toNat_zero, magUnits_zero, Nat.zero_mul]
  exact fl_zero (by positivity)

theorem numMul_plusZero_right {x : Numeric} (hx : x.toNat < infinityBits) : numMul x plusZero = plusZero := by
  rw [numMul_eq_fl hx (by decide), BitVec.toNat_zero, magUnits_zero, Nat.mul_zero]
  exact fl_zero (by positivity)

theorem numDiv_plusZero {y : Numeric} (hy : y.toNat < infinityBits) (hy0 : 0 < y.toNat) :
    numDiv plusZero y = plusZero := by
  rw [numDiv_eq_fl (by decide) hy hy0, BitVec.toNat_zero, magUnits_zero]
  exact fl_zero (magUnits_pos hy0)

/-- An integer of at most 24 bits is finite (R12). -/
theorem numOfNat_finite {n : Nat} (h : n < 2 ^ 24) : (numOfNat n).toNat < infinityBits :=
  (numOfNat_mono h.le).trans_lt (by decide +kernel)

/-- A product of +0.0 gives an increment of +0.0 (R183). -/
theorem energyIncrement_of_product_zero {diff : Raw16} {pcoef : Raw24}
    (h : numMul (numOfNat diff.toNat) (numOfNat pcoef.toNat) = plusZero) :
    energyIncrement diff pcoef = plusZero := by
  rw [energyIncrement, h, numDiv_plusZero (by decide +kernel) (by decide +kernel),
    numDiv_plusZero (by decide +kernel) (by decide +kernel)]

/-- Settles O43: a zero factor makes the product +0.0, and every operation is monotone. -/
theorem energyIncrementIsBounded : Obligations.EnergyIncrementIsBounded := by
  refine fun diff pcoef => ⟨fun h => energyIncrement_of_product_zero ?_, energyIncrement_le diff pcoef,
    by decide +kernel⟩
  have hzero : numOfNat 0 = plusZero := fl_zero Nat.one_pos
  obtain rfl | rfl := h
  · rw [BitVec.toNat_zero, hzero]
    exact numMul_plusZero_left (numOfNat_finite pcoef.isLt)
  · rw [BitVec.toNat_zero, hzero]
    exact numMul_plusZero_right (numOfNat_finite (diff.isLt.trans (by decide)))

/-! ### Counts and drains -/

/-- A drain without samples delivers nothing (R187). -/
theorem drainValue_of_empty {a : Acc} (h : a.cnt = 0#32) : drainValue a = none := if_pos h

/-- Settles O47: a count at its bound becomes 0, and an accumulator with count 0 is not drained. -/
theorem countsWrapAndAWrappedCountDeliversNothing :
    Obligations.CountsWrapAndAWrappedCountDeliversNothing := by
  intro x a
  have hcnt : (accAdd x a).cnt.toNat = (a.cnt.toNat + 1) % 2 ^ 32 := BitVec.toNat_add ..
  refine ⟨hcnt, fun hmax => ?_⟩
  have hempty : (accAdd x a).cnt = 0#32 := BitVec.eq_of_toNat_eq (by rw [hcnt, hmax]; rfl)
  exact ⟨drainValue_of_empty hempty, drainAcc_of_empty hempty⟩

/-- The value a drain answers: the mean, or +0.0 where there is none (R187). -/
theorem drainValue_getD (a : Acc) :
    (drainValue a).getD plusZero =
      if a.cnt = 0#32 then plusZero else numDiv a.sum (numOfNat a.cnt.toNat) := by
  by_cases h : a.cnt = 0#32 <;> simp [drainValue, h]

/-- The value the energy drain answers: the total, or +0.0 where nothing is pending (R188). -/
theorem drainEnergyValue_getD (e : Energy) :
    (drainEnergyValue e).getD plusZero = if e.pending = 0#32 then plusZero else e.total := by
  by_cases h : e.pending = 0#32 <;> simp [drainEnergyValue, h]

/-- Settles O17: the response is that of the four drains, and the registers are `publishRegs`. -/
theorem publishDrainsEveryAccumulator : Obligations.PublishDrainsEveryAccumulator := by
  intro s
  change Host.Outcome.next (respond (publishResponse s) (publishRegs s)) = _
  simp only [publishResponse, drainValue_isSome, drainEnergyValue_isSome, drainValue_getD, drainEnergyValue_getD]
  rfl

/-! ### What a command does to the quantities, for any parameters -/

section AnyParameters

variable {c : Params} {s t : State}

/-- Completing a frame changes no quantity, or commits, which takes no count over its bound where that is refused
(R159, R186, R238). -/
theorem completeFrame_next (h : completeFrame c s = .next t) :
    SameQuantities s t ∨ ∃ rec, decodeFrame c s.buf = .ok rec ∧ t = commitFrame rec s ∧
      (c.countOverflow = .refuse → ¬CountWouldWrap rec s) := by
  have hdiscard (evt : Event) (info : BitVec 4) : SameQuantities s (discardFrame evt info s) :=
    ⟨rfl, rfl, rfl, rfl⟩
  unfold completeFrame at h
  split at h
  · cases h
    exact .inl (hdiscard ..)
  · cases h
    exact .inl (hdiscard ..)
  · split at h <;> cases h
    exact .inl (hdiscard ..)
  · next rec hd =>
    split at h
    · next hwrap =>
      cases h
      exact .inr ⟨rec, hd, rfl, by simp [hwrap]⟩
    · split_ifs at h with hover
      cases h
      exact .inr ⟨rec, hd, rfl, fun _ => mt (commitOverflows_iff rec s).2 hover⟩

theorem SameQuantities.of_storedByte {b : Byte} (h : SameQuantities (storedByte b s) t) : SameQuantities s t := by
  simpa [SameQuantities] using h

/-- A stream byte changes no quantity unless it commits a frame (R103, R159). -/
theorem deliverByte_next {b : Byte} (h : deliverByte c b s = .next t) :
    SameQuantities s t ∨ ∃ rec m, decodeFrame c m = .ok rec ∧ t = commitFrame rec (storedByte b s) ∧
      (c.countOverflow = .refuse → ¬CountWouldWrap rec (storedByte b s)) := by
  by_cases hcur : s.cur.toNat < 24
  · rw [deliverByte_of_lt _ _ _ hcur, checkByte] at h
    split_ifs at h
    · obtain hsame | ⟨rec, hd, ht⟩ := completeFrame_next h
      · exact .inl hsame.of_storedByte
      · exact .inr ⟨rec, _, hd, ht⟩
    · cases h
      exact .inl (SameQuantities.of_storedByte (b := b) ⟨rfl, rfl, rfl, rfl⟩)
    · cases h
      exact .inl (SameQuantities.of_storedByte (b := b) ⟨rfl, rfl, rfl, rfl⟩)
  · rw [deliverByte_of_ge _ _ _ (Nat.le_of_not_lt hcur)] at h
    cases h

/-- The quantities change only at PUBLISH and at a committed frame, whatever the parameters (R20, R159, R190). -/
theorem execWith_quantities {i : Instr} (h : execWith c i s = .next t) :
    t = publishCommand s ∨ SameQuantities s t ∨
      ∃ b rec m, decodeFrame c m = .ok rec ∧ t = commitFrame rec (storedByte b s) ∧
        (c.countOverflow = .refuse → ¬CountWouldWrap rec (storedByte b s)) := by
  have hreserved (h : reservedCommand c s = .next t) : SameQuantities s t := by
    unfold reservedCommand at h
    split at h <;> cases h
    exact ⟨rfl, rfl, rfl, rfl⟩
  cases hb : i.streamByte with
  | some b =>
    rw [execWith_of_streamByte c hb] at h
    obtain hsame | hcommit := deliverByte_next h
    · exact .inr (.inl hsame)
    · exact .inr (.inr ⟨b, hcommit⟩)
  | none =>
    cases i with
    | nop =>
      cases h
      exact .inr (.inl ⟨rfl, rfl, rfl, rfl⟩)
    | poll now =>
      cases h
      exact .inr (.inl ⟨rfl, rfl, rfl, rfl⟩)
    | publish =>
      cases h
      exact .inl rfl
    | reserved47 op => exact .inr (.inl (hreserved h))
    | reserved8F op => exact .inr (.inl (hreserved h))
    | _ => cases hb

/-! ### Energy is delivered only with power -/

/-- There are at most as many pending increments as power samples (R190). -/
def EnergyWithinPower (s : State) : Prop := s.energy.pending.toNat ≤ s.accP.cnt.toNat

/-- A commit adds a power sample with every increment; it keeps the relation where the sample does not wrap the
count (R160, R186). -/
theorem commitFrame_energyWithinPower {m : Memory} {rec : DecodeRecord} (hd : decodeFrame c m = .ok rec)
    (hroom : rec.hp = true ∨ rec.p0 = true → s.accP.cnt.toNat < 2 ^ 32 - 1) (h : EnergyWithinPower s) :
    EnergyWithinPower (commitFrame rec s) := by
  have hP : (commitFrame rec s).accP =
      if rec.hp then accAdd rec.p s.accP else if rec.p0 then accAdd plusZero s.accP else s.accP :=
    commitRegs_accP_of_decoded hd s
  unfold EnergyWithinPower at h ⊢
  rw [hP, commitFrame_energy]
  split_ifs with hp hp0
  · have := hroom (.inl hp)
    rw [energyStep_pending, accAdd_cnt]
    bv_omega
  · have := hroom (.inr hp0)
    rw [accAdd_cnt]
    bv_omega
  · exact h

/-- Every command keeps the relation where a power sample that wraps the count is refused or cannot come (R190,
R238). -/
theorem execWith_energyWithinPower {i : Instr}
    (hroom : c.countOverflow = .refuse ∨ s.accP.cnt.toNat < 2 ^ 32 - 1) (h : EnergyWithinPower s)
    (hx : execWith c i s = .next t) : EnergyWithinPower t := by
  obtain rfl | ⟨-, -, hP, hE⟩ | ⟨b, rec, m, hd, rfl, hwrap⟩ := execWith_quantities hx
  · exact Nat.zero_le _
  · rw [EnergyWithinPower, hP, hE]
    exact h
  · refine commitFrame_energyWithinPower hd (fun hsample => ?_) (by simpa [EnergyWithinPower] using h)
    obtain hrefuse | hlt := hroom
    · have hne : (storedByte b s).accP.cnt.toNat ≠ 2 ^ 32 - 1 := fun hmax =>
        hwrap hrefuse (.inr (.inr (.inl ⟨hsample, hmax⟩)))
      omega
    · rwa [storedByte_accP]

/-- Every step keeps the relation: with no input the state is held, and reset clears both counts (R237, R250). -/
theorem stepWith_energyWithinPower (hroom : c.countOverflow = .refuse ∨ s.accP.cnt.toNat < 2 ^ 32 - 1)
    (h : EnergyWithinPower s) (hx : stepWith c s = .next t) : EnergyWithinPower t := by
  unfold stepWith takeInput at hx
  cases hin : s.inputs with
  | nil =>
    rw [hin] at hx
    cases hx
    exact h
  | cons input rest =>
    rw [hin] at hx
    cases input with
    | rst during =>
      cases hx
      exact Nat.zero_le _
    | cmd w => exact execWith_energyWithinPower (s := { s with inputs := rest }) hroom h hx

end AnyParameters

/-- Settles O49: the hardware and the proof model are two cases of `stepWith`, and PUBLISH reads the two counts. -/
theorem energyIsNeverDeliveredWithoutPower : Obligations.EnergyIsNeverDeliveredWithoutPower := by
  refine ⟨fun s t h hlt hx => ?_, fun s t h hx => stepWith_energyWithinPower (.inl rfl) h hx,
    fun s t r h hx hr hE => ?_⟩
  · rw [← stepWith_hw] at hx
    exact stepWith_energyWithinPower (.inr hlt) h hx
  · cases hx
    cases hr
    have hpending : s.energy.pending ≠ 0#32 := by simpa [publishResponse] using hE
    have hcnt : s.accP.cnt ≠ 0#32 := by bv_omega
    simpa [publishResponse] using hcnt

end Sys2Proof.Machine
end

section
/-!
PROOFS of the family 60_exceptions.md: no fault and the invariant (R238, R101, R22, R35, R12), the proof model (R238,
R155, R186, R73).
-/

namespace Sys2Proof.Machine

/-! ### The sums and the total keep their bounds -/

/-- The running sums are at most 2^49 and the energy total at most 2^34: the part of `State.Inv` about the
quantities (R12, R36). -/
structure QuantitiesBounded (s : State) : Prop where
  sumV : s.accV.sum.toNat ≤ sumBound
  sumI : s.accI.sum.toNat ≤ sumBound
  sumP : s.accP.sum.toNat ≤ sumBound
  total : s.energy.total.toNat ≤ totalBound

/-- A running sum keeps its bound 2^49, where it absorbs every sample: a converted quantity is at most 2^24 (R36,
R157). -/
theorem accAdd_sum_le {x : Numeric} {a : Acc} (hx : x.toNat ≤ 0x4B800000) (ha : a.sum.toNat ≤ sumBound) :
    (accAdd x a).sum.toNat ≤ sumBound :=
  numAdd_bounded (X := 0x4B800000) (by decide) (by decide) (by decide) (by decide) ha hx (by decide)

/-- An optional sample keeps the bound too (R185). -/
theorem ite_accAdd_sum_le {present : Bool} {x : Numeric} {a : Acc} (hx : x.toNat ≤ 0x4B800000)
    (ha : a.sum.toNat ≤ sumBound) : (if present then accAdd x a else a).sum.toNat ≤ sumBound := by
  cases present with
  | false => exact ha
  | true => exact accAdd_sum_le hx ha

/-- A drain keeps the sum or clears it (R187). -/
theorem drainAcc_sum_le {a : Acc} (ha : a.sum.toNat ≤ sumBound) : (drainAcc a).sum.toNat ≤ sumBound := by
  unfold drainAcc
  split_ifs
  · exact ha
  · exact Nat.zero_le _

section Quantities

variable {s t : State}

theorem QuantitiesBounded.of_sameQuantities (h : QuantitiesBounded s) (hsame : SameQuantities s t) :
    QuantitiesBounded t := by
  obtain ⟨hV, hI, hP, hE⟩ := hsame
  exact ⟨hV ▸ h.sumV, hI ▸ h.sumI, hP ▸ h.sumP, hE ▸ h.total⟩

theorem QuantitiesBounded.publishCommand (h : QuantitiesBounded s) : QuantitiesBounded (publishCommand s) :=
  ⟨drainAcc_sum_le h.sumV, drainAcc_sum_le h.sumI, drainAcc_sum_le h.sumP, h.total⟩

/-- A commit adds converted quantities, the extra sample +0.0, and one energy increment (R160). -/
theorem QuantitiesBounded.commitFrame {c : Params} {m : Memory} {r : DecodeRecord} (h : QuantitiesBounded s)
    (hd : decodeFrame c m = .ok r) : QuantitiesBounded (commitFrame r s) := by
  obtain ⟨hv, hi, hp⟩ := decodeFrame_ok_le hd
  refine ⟨ite_accAdd_sum_le hv h.sumV, ite_accAdd_sum_le hi h.sumI,
    ite_accAdd_sum_le (Nat.zero_le _) (ite_accAdd_sum_le hp h.sumP), ?_⟩
  rw [commitFrame_energy]
  split_ifs
  · exact energyStep_total_le _ _ h.total
  · exact h.total

/-- Every instruction keeps the bounds (R12, R36). -/
theorem QuantitiesBounded.of_exec {i : Instr} (h : QuantitiesBounded s) (hx : exec i s = .next t) :
    QuantitiesBounded t := by
  rw [← execWith_hw] at hx
  obtain rfl | hsame | ⟨b, r, m, hd, rfl, -⟩ := execWith_quantities hx
  · exact h.publishCommand
  · exact h.of_sameQuantities hsame
  · exact (h.of_sameQuantities (SameQuantities.of_storedByte (b := b) ⟨rfl, rfl, rfl, rfl⟩)).commitFrame hd

end Quantities

/-! ### The bytes before the cursor stay accepted -/

/-- The buffer is in canonical form, the cursor is a frame position and the headers before it were accepted: the part
of `State.Inv` about the frame (R22, R35). -/
structure FrameInv (s : State) : Prop where
  bufWf : s.buf.wf = true
  curInFrame : s.cur.toNat < 24
  headers : headersAccepted Config.hw s = true

/-- The headers that lie before the cursor, by its number (R35). -/
theorem headersAccepted_iff (c : Params) (s : State) :
    headersAccepted c s = true ↔
      (0 < s.cur.toNat → hdr1Ok c (s.buf.read 0) = true) ∧ (1 < s.cur.toNat → s.buf.read 1 = c.sync2) := by
  have h0 : s.cur = 0#5 ↔ ¬0 < s.cur.toNat := by bv_omega
  have h1 : s.cur = 0#5 ∨ s.cur = 1#5 ↔ ¬1 < s.cur.toNat := by bv_omega
  simp only [headersAccepted, Bool.and_eq_true, Bool.or_eq_true, beq_iff_eq]
  rw [h1, h0, ← imp_iff_not_or, ← imp_iff_not_or]

/-- Before position 0 lies no header. -/
theorem headersAccepted_of_cur_zero (c : Params) {s : State} (h : s.cur = 0#5) : headersAccepted c s = true := by
  simp [headersAccepted, h]

section FrameAttempt

variable {i : Instr} {b : Byte} {s t : State}

/-- A byte that passes its check at the cursor is an accepted header when it is at position 0 or 1, and leaves the
headers before it alone (R35, R105, R106). -/
theorem headersAccepted_of_valid (h : FrameInv s)
    (hv : valid Config.hw (s.buf.write s.cur.toNat b) s.cur.toNat = true) (hlt : s.cur.toNat < 23)
    (hbuf : t.buf = s.buf.write s.cur.toNat b) (hcur : t.cur = s.cur + 1#5) :
    headersAccepted Config.hw t = true := by
  obtain ⟨hdr1, hdr2⟩ := (headersAccepted_iff _ _).1 h.headers
  have hnext : t.cur.toNat = s.cur.toNat + 1 := by bv_omega
  rw [headersAccepted_iff, hbuf, hnext]
  refine ⟨fun _ => ?_, fun hone => ?_⟩
  · by_cases h0 : s.cur.toNat = 0
    · rw [h0, valid_stored_hdr1 _ _ h.bufWf] at hv
      rwa [h0, Memory.read_write_same b h.bufWf]
    · rw [Memory.read_write_other b (Ne.symm h0)]
      exact hdr1 (Nat.pos_of_ne_zero h0)
  · by_cases h1 : s.cur.toNat = 1
    · rw [h1, valid_stored_hdr2 _ _ h.bufWf] at hv
      rw [h1, Memory.read_write_same b h.bufWf]
      exact eq_of_beq hv
    · rw [Memory.read_write_other b (Ne.symm h1)]
      exact hdr2 (by omega)

/-- A stream byte ends the frame attempt, or passes its check and advances the cursor (R103). -/
theorem exec_streamByte_cur (hb : i.streamByte = some b) (hin : s.cur.toNat < 24) (hx : exec i s = .next t) :
    t.cur = 0#5 ∨ valid Config.hw (s.buf.write s.cur.toNat b) s.cur.toNat = true ∧ s.cur.toNat < 23 ∧
      t.cur = s.cur + 1#5 := by
  rw [exec_of_streamByte hb] at hx
  obtain ⟨-, hd⟩ | ⟨hv, hlt, hd⟩ | ⟨-, -, _, _, -, -, hd⟩ | ⟨-, -, _, -, hd⟩ := deliverByte_ends b s hin <;>
    cases hd.symm.trans hx
  · exact .inl rfl
  · exact .inr ⟨hv, hlt, rfl⟩
  · exact .inl rfl
  · exact .inl rfl

/-- Every instruction keeps the part of the invariant about the frame (R22, R35). -/
theorem FrameInv.of_exec (h : FrameInv s) (hx : exec i s = .next t) : FrameInv t := by
  have of_zero (hwf : t.buf.wf = true) (h0 : t.cur = 0#5) : FrameInv t :=
    ⟨hwf, by simp [h0], headersAccepted_of_cur_zero _ h0⟩
  cases hb : i.streamByte with
  | none =>
    have hbuf : t.buf = s.buf := (congrArg State.buf (exec_noByte_frame hb hx) :)
    obtain hcur | h0 := exec_noByte_cur hb hx
    · refine ⟨hbuf ▸ h.bufWf, hcur ▸ h.curInFrame, ?_⟩
      rw [headersAccepted, hbuf, hcur]
      exact h.headers
    · exact of_zero (hbuf ▸ h.bufWf) h0
  | some b =>
    have hbuf : t.buf = s.buf.write s.cur.toNat b := congrArg State.buf (exec_streamByte_frame hb hx)
    have hwf : t.buf.wf = true := hbuf ▸ Memory.write_wf b h.bufWf h.curInFrame
    obtain h0 | ⟨hv, hlt, hcur⟩ := exec_streamByte_cur hb h.curInFrame hx
    · exact of_zero hwf h0
    · exact ⟨hwf, by bv_omega, headersAccepted_of_valid h hv hlt hbuf hcur⟩

end FrameAttempt

/-! ### The invariant -/

/-- The invariant is its part about the frame and its part about the quantities. -/
theorem State.inv_iff (s : State) : s.Inv ↔ FrameInv s ∧ QuantitiesBounded s where
  mp h := ⟨⟨h.bufWf, h.curInFrame, h.headers⟩, ⟨h.sumV, h.sumI, h.sumP, h.total⟩⟩
  mpr := fun ⟨hf, hq⟩ => ⟨hf.bufWf, hf.curInFrame, hf.headers, hq.sumV, hq.sumI, hq.sumP, hq.total⟩

theorem State.Inv.of_exec {i : Instr} {s t : State} (h : s.Inv) (hx : exec i s = .next t) : t.Inv := by
  obtain ⟨hframe, hquant⟩ := s.inv_iff.1 h
  exact t.inv_iff.2 ⟨hframe.of_exec hx, hquant.of_exec hx⟩

/-- The invariant does not speak of the host's inputs. -/
theorem State.Inv.with_inputs {s : State} (h : s.Inv) (is : List Input) : State.Inv { s with inputs := is } :=
  ⟨h.bufWf, h.curInFrame, h.headers, h.sumV, h.sumI, h.sumP, h.total⟩

/-- Settles O50: a step holds the state, resets it, or runs a command, which completes and keeps both parts of the
invariant. -/
theorem hardwareNeverFaultsAndKeepsTheInvariant : Obligations.HardwareNeverFaultsAndKeepsTheInvariant := by
  intro s h
  obtain ⟨-, hstep⟩ | ⟨_, rest, -, hstep⟩ | ⟨w, rest, -, hstep⟩ := step_cases s
  · exact ⟨s, hstep, h⟩
  · exact ⟨_, hstep, resetStateMeetsTheInvariant.with_inputs rest⟩
  · have hrun := h.with_inputs rest
    obtain ⟨t, _, hx, -⟩ := everyCommandCompletes (decodeCmd w) { s with inputs := rest } hrun.curInFrame
    exact ⟨t, hstep.trans hx, hrun.of_exec hx⟩

/-! ### A stream byte in the proof model -/

/-- The parameters decide a step only where it runs a command (R237, R250). -/
theorem stepWith_cases (s : State) :
    (∃ t, ∀ c, stepWith c s = .next t) ∨
      ∃ w rest, s.inputs = .cmd w :: rest ∧
        ∀ c, stepWith c s = execWith c (decodeCmd w) { s with inputs := rest } := by
  unfold stepWith takeInput
  cases s.inputs with
  | nil => exact .inl ⟨_, fun _ => rfl⟩
  | cons input rest =>
    cases input with
    | rst during => exact .inl ⟨_, fun _ => rfl⟩
    | cmd w => exact .inr ⟨w, rest, rfl, fun _ => rfl⟩

/-- The proof model checks a byte as the hardware does. -/
theorem valid_proofModel (m : Memory) (p : Nat) : valid Config.proofModel m p = valid Config.hw m p := rfl

section ProofModel

variable {i : Instr} {b : Byte} {s : State}

/-- The counts that a commit would wrap are not changed by the store before it. -/
theorem countWouldWrap_storedByte (r : DecodeRecord) (b : Byte) (s : State) :
    CountWouldWrap r (storedByte b s) ↔ CountWouldWrap r s := by
  simp only [CountWouldWrap, storedByte_accV, storedByte_accI, storedByte_accP, storedByte_energy]

/-- A byte that passes the checksum completes the frame, whatever the parameters (R103). -/
theorem deliverByte_of_valid_last {c : Params} (hcur : s.cur = 23#5)
    (hv : valid c (s.buf.write 23 b) 23 = true) : deliverByte c b s = completeFrame c (storedByte b s) := by
  have hlast : s.cur.toNat = 23 := congrArg BitVec.toNat hcur
  rw [deliverByte_of_lt _ _ _ (by omega), checkByte, storedByte_buf, hlast, if_pos hv, if_pos rfl]

/-- Any other byte is stored, accepted or rejected as in the hardware (R103). -/
theorem deliverByte_proofModel_of_not_last
    (h : s.cur = 23#5 → valid Config.hw (s.buf.write 23 b) 23 = false) :
    deliverByte Config.proofModel b s = deliverByte Config.hw b s := by
  by_cases hlt : s.cur.toNat < 24
  · rw [deliverByte_of_lt _ _ _ hlt, deliverByte_of_lt _ _ _ hlt, checkByte, checkByte, storedByte_buf,
      valid_proofModel]
    by_cases hlast : s.cur.toNat = 23
    · rw [hlast, h (BitVec.eq_of_toNat_eq hlast)]
      rfl
    · rw [if_neg hlast, if_neg hlast]
  · rw [deliverByte_of_ge _ _ _ (Nat.le_of_not_lt hlt), deliverByte_of_ge _ _ _ (Nat.le_of_not_lt hlt)]

/-- R155, R238: the proof model stops on a zero divisor. -/
theorem completeFrame_proofModel_of_zeroCycle {w : ZeroCycle} (h : decodeFrame Config.hw s.buf = .zeroCycle w) :
    completeFrame Config.proofModel s = .fault (.zeroCycle w) := by
  simp only [completeFrame_proofModel, h]

/-- R186, R238: the proof model refuses a commit that takes a count to 2^32. -/
theorem completeFrame_proofModel_of_wrap {r : DecodeRecord} (h : decodeFrame Config.hw s.buf = .ok r)
    (hwrap : CountWouldWrap r s) : completeFrame Config.proofModel s = .refused .countOverflow := by
  simp only [completeFrame_proofModel, h, if_pos ((commitOverflows_iff r s).2 hwrap)]

/-- R160: any other commit is the hardware's. -/
theorem completeFrame_proofModel_of_room {r : DecodeRecord} (h : decodeFrame Config.hw s.buf = .ok r)
    (hroom : ¬CountWouldWrap r s) : completeFrame Config.proofModel s = completeFrame Config.hw s := by
  simp only [completeFrame_proofModel, h, if_neg ((commitOverflows_iff r s).not.2 hroom)]

/-- The completion of a frame is the hardware's, or stops on a zero divisor or a count (R238). -/
theorem completeFrame_proofModel_cases (s : State) :
    completeFrame Config.proofModel s = completeFrame Config.hw s ∨
    (∃ w, decodeFrame Config.hw s.buf = .zeroCycle w ∧
      completeFrame Config.proofModel s = .fault (.zeroCycle w)) ∨
    ∃ r, decodeFrame Config.hw s.buf = .ok r ∧ CountWouldWrap r s ∧
      completeFrame Config.proofModel s = .refused .countOverflow := by
  cases h : decodeFrame Config.hw s.buf with
  | uncalibrated => exact .inl (by simp only [completeFrame_proofModel, h])
  | abortStatus bits => exact .inl (by simp only [completeFrame_proofModel, h])
  | zeroCycle w => exact .inr (.inl ⟨w, rfl, completeFrame_proofModel_of_zeroCycle h⟩)
  | ok r =>
    by_cases hwrap : CountWouldWrap r s
    · exact .inr (.inr ⟨r, rfl, hwrap, completeFrame_proofModel_of_wrap h hwrap⟩)
    · exact .inl (completeFrame_proofModel_of_room h hwrap)

/-! ### Where the proof model stops -/

/-- R73, R238: the proof model refuses RESERVED_4_7. -/
theorem execWith_proofModel_reserved47 (op : BitVec 2) (s : State) :
    execWith Config.proofModel (.reserved47 op) s = .refused .reservedCommand := rfl

/-- R73, R238: the proof model refuses RESERVED_8_F. -/
theorem execWith_proofModel_reserved8F (op : BitVec 3) (s : State) :
    execWith Config.proofModel (.reserved8F op) s = .refused .reservedCommand := rfl

/-- A byte that passes the checksum at the last position completes a frame (R103, R108). -/
theorem completesFrame_of_valid_last (hwf : s.buf.wf = true) (hcur : s.cur = 23#5)
    (hv : valid Config.hw (s.buf.write 23 b) 23 = true) : CompletesFrame b s :=
  ⟨hwf, hcur, of_decide_eq_true ((valid_stored_last _ _ hwf).symm.trans hv)⟩

/-- An instruction that completes a frame, whatever the parameters (R103, R108). -/
theorem execWith_completes (c : Params) (hb : i.streamByte = some b) (h : CompletesFrame b s) :
    execWith c i s = completeFrame c (storedByte b s) := by
  obtain ⟨hwf, hcur, hsum⟩ := h
  rw [execWith_of_streamByte c hb]
  exact deliverByte_of_valid_last hcur ((valid_stored_last c b hwf).trans (decide_eq_true hsum))

/-- The proof model runs an instruction as the hardware does, or answers no next state, which in canonical buffers is
one of the three cases (R238). -/
theorem execWith_proofModel_cases (i : Instr) (s : State) :
    execWith Config.proofModel i s = exec i s ∨
      (∀ t, execWith Config.proofModel i s ≠ .next t) ∧ (s.buf.wf = true → ProofModelStops i s) := by
  cases hb : i.streamByte with
  | none =>
    cases i with
    | nop => exact .inl rfl
    | poll now => exact .inl rfl
    | publish => exact .inl rfl
    | reserved47 op =>
      rw [execWith_proofModel_reserved47]
      exact .inr ⟨by simp, fun _ => .inl ⟨op, rfl⟩⟩
    | reserved8F op =>
      rw [execWith_proofModel_reserved8F]
      exact .inr ⟨by simp, fun _ => .inr (.inl ⟨op, rfl⟩)⟩
    | _ => cases hb
  | some b =>
    rw [execWith_of_streamByte _ hb, exec_of_streamByte hb]
    by_cases hlast : s.cur = 23#5 → valid Config.hw (s.buf.write 23 b) 23 = false
    · exact .inl (deliverByte_proofModel_of_not_last hlast)
    obtain ⟨hcur, hv⟩ : s.cur = 23#5 ∧ valid Config.hw (s.buf.write 23 b) 23 = true := by simpa using hlast
    have hcompletes (hwf : s.buf.wf = true) : CompletesFrame b s := completesFrame_of_valid_last hwf hcur hv
    rw [deliverByte_of_valid_last hcur hv, deliverByte_of_valid_last (c := Config.proofModel) hcur hv]
    obtain heq | ⟨w, hd, hstop⟩ | ⟨r, hd, hwrap, hstop⟩ := completeFrame_proofModel_cases (storedByte b s)
    · exact .inl heq
    · refine .inr ⟨by simp [hstop], fun hwf => .inr (.inr ⟨b, hb, hcompletes hwf, .inl ⟨w, ?_⟩⟩)⟩
      rwa [← storedByte_buf_of_completes (hcompletes hwf)]
    · refine .inr ⟨by simp [hstop], fun hwf => .inr (.inr ⟨b, hb, hcompletes hwf, .inr ⟨r, ?_, ?_⟩⟩)⟩
      · rwa [← storedByte_buf_of_completes (hcompletes hwf)]
      · exact (countWouldWrap_storedByte r b s).1 hwrap

/-- Outside the three cases the proof model is the hardware (R238). -/
theorem execWith_proofModel_of_not_stops (hwf : s.buf.wf = true) (h : ¬ProofModelStops i s) :
    execWith Config.proofModel i s = exec i s :=
  (execWith_proofModel_cases i s).resolve_right fun hstop => h (hstop.2 hwf)

/-- Where the proof model goes on, it goes on as the hardware (R238). -/
theorem exec_of_execWith_proofModel {t : State} (h : execWith Config.proofModel i s = .next t) :
    exec i s = .next t := by
  obtain heq | ⟨hstop, -⟩ := execWith_proofModel_cases i s
  · exact heq.symm.trans h
  · exact absurd h (hstop t)

/-- A completed frame that decodes to a record is refused exactly when it wraps a count (R186, R238). -/
theorem execWith_proofModel_refused_iff {r : DecodeRecord} (hb : i.streamByte = some b) (h : CompletesFrame b s)
    (hd : decodeFrame Config.hw (s.buf.write 23 b) = .ok r) :
    execWith Config.proofModel i s = .refused .countOverflow ↔ CountWouldWrap r s := by
  rw [← storedByte_buf_of_completes h] at hd
  rw [execWith_completes _ hb h, ← countWouldWrap_storedByte r b s]
  refine ⟨fun hrefused => by_contra fun hroom => ?_, completeFrame_proofModel_of_wrap hd⟩
  rw [completeFrame_proofModel_of_room hd hroom, completeFrame_of_ok hd] at hrefused
  cases hrefused

end ProofModel

/-- Settles O52: a step runs a command, resets or holds, and a command is the hardware's or one of the three stops. -/
theorem proofModelIsTheHardwareButForThreeStops : Obligations.ProofModelIsTheHardwareButForThreeStops := by
  refine ⟨fun s t h => ?_, fun i s => execWith_proofModel_of_not_stops, fun s hwf hno => ?_,
    fun s op => execWith_proofModel_reserved47 op s, fun s op => execWith_proofModel_reserved8F op s,
    fun i b s hb h => ⟨fun w hd => ?_, fun r hd => execWith_proofModel_refused_iff hb h hd⟩⟩
  · rw [← stepWith_hw]
    obtain ⟨u, hstep⟩ | ⟨w, rest, -, hstep⟩ := stepWith_cases s
    · rw [hstep] at h ⊢
      exact h
    · rw [hstep] at h ⊢
      exact (execWith_hw ..).trans (exec_of_execWith_proofModel h)
  · rw [← stepWith_hw]
    obtain ⟨u, hstep⟩ | ⟨w, rest, hin, hstep⟩ := stepWith_cases s
    · rw [hstep, hstep]
    · have hcmd : ¬ProofModelStops (decodeCmd w) { s with inputs := rest } := hno w rest hin
      rw [hstep, hstep, execWith_hw]
      exact execWith_proofModel_of_not_stops hwf hcmd
  · rw [execWith_completes _ hb h]
    exact completeFrame_proofModel_of_zeroCycle (storedByte_buf_of_completes h ▸ hd)

end Sys2Proof.Machine
end

section
/-!
PROOFS of the family 70_reset_and_hazards.md: what the host can never observe (R251, R27, R35), the reset values and
`rst` (R250), the first commands after reset (R251).
-/

namespace Sys2Proof.Machine

/-! ### States that differ where the host cannot look -/

/-- The state with these contents of the buffer and of `pulse_last`. -/
def State.withContents (m : Memory) (p : Raw16) (s : State) : State :=
  { s with buf := m, energy := { s.energy with pulseLast := p } }

@[simp] theorem State.withContents_buf (m : Memory) (p : Raw16) (s : State) : (s.withContents m p).buf = m := rfl
@[simp] theorem State.withContents_cur (m : Memory) (p : Raw16) (s : State) : (s.withContents m p).cur = s.cur := rfl

/-- These contents differ from the state's at most where the host cannot look: in buffer bytes at and above the
cursor, and in `pulse_last` while it is unset (R27, R35). -/
structure HiddenContents (m : Memory) (p : Raw16) (s : State) : Prop where
  buf : ∀ k, k < s.cur.toNat → s.buf.read k = m.read k
  pulseLast : s.energy.pulseValid = true → s.energy.pulseLast = p

/-- Both outcomes are next states, and these differ only where the host cannot look (R251). -/
def EndAlike (o o' : Outcome) : Prop := ∃ s t, o = .next s ∧ o' = .next t ∧ s.Alike t

/-- Alike states are one state with two hidden contents. -/
theorem State.alike_iff (s t : State) :
    s.Alike t ↔ ∃ m p, HiddenContents m p s ∧ t = s.withContents m p where
  mp h := by
    refine ⟨t.buf, t.energy.pulseLast, ⟨h.buf, h.pulseLast⟩, ?_⟩
    simp only [withContents, h.cur, h.lastT, h.invNow, h.invFresh, h.warn, h.accV, h.accI, h.accP, h.pulseValid,
      h.total, h.pending, h.inputs, h.rsp]
  mpr := by
    rintro ⟨m, p, h, rfl⟩
    exact ⟨h.buf, rfl, rfl, rfl, rfl, rfl, rfl, rfl, rfl, rfl, h.pulseLast, rfl, rfl, rfl, rfl⟩

section Hidden

variable {i : Instr} {b : Byte} {m : Memory} {p : Raw16} {s t : State}

theorem HiddenContents.endAlike {o o' : Outcome} (h : HiddenContents m p s) (ho : o = .next s)
    (ho' : o' = .next (s.withContents m p)) : EndAlike o o' :=
  ⟨s, _, ho, ho', (State.alike_iff ..).2 ⟨m, p, h, rfl⟩⟩

/-- With the cursor at 0 every byte of the buffer is hidden (R109). -/
theorem HiddenContents.of_cur_zero (hcur : s.cur = 0#5)
    (hpulse : s.energy.pulseValid = true → s.energy.pulseLast = p) : HiddenContents m p s :=
  ⟨fun k hk => by simp [hcur] at hk, hpulse⟩

/-! ### Commands without a byte -/

/-- A command without a byte reads neither the buffer nor `pulse_last`, and writes neither (R100, R102, R190). -/
theorem exec_noByte_withContents (hb : i.streamByte = none) (hx : exec i s = .next t) :
    exec i (s.withContents m p) = .next (t.withContents m p) := by
  cases i with
  | nop | poll | publish | reserved47 | reserved8F => cases hx; rfl
  | _ => cases hb

/-- A command without a byte uncovers nothing: it keeps the cursor or ends the frame attempt (R110). -/
theorem HiddenContents.of_exec_noByte (h : HiddenContents m p s) (hb : i.streamByte = none)
    (hx : exec i s = .next t) : HiddenContents m p t := by
  have hframe := exec_noByte_frame hb hx
  have hbuf : t.buf = s.buf := (congrArg State.buf hframe :)
  have hvalid : t.energy.pulseValid = s.energy.pulseValid := (congrArg (·.energy.pulseValid) hframe :)
  have hlast : t.energy.pulseLast = s.energy.pulseLast := (congrArg (·.energy.pulseLast) hframe :)
  have hpulse : t.energy.pulseValid = true → t.energy.pulseLast = p := hvalid ▸ hlast ▸ h.pulseLast
  obtain hcur | hcur := exec_noByte_cur hb hx
  · exact ⟨hcur ▸ hbuf ▸ h.buf, hpulse⟩
  · exact .of_cur_zero hcur hpulse

/-! ### The completion of a frame -/

/-- While it is unset, `pulse_last` has no part in the difference (R181). -/
theorem pulseDiff_of_hidden {e : Energy} (cf : Raw16) (h : e.pulseValid = true → e.pulseLast = p) :
    pulseDiff { e with pulseLast := p } cf = pulseDiff e cf := by
  unfold pulseDiff
  cases hv : e.pulseValid with
  | false => rfl
  | true => rw [h hv]

/-- A commit with power sets the baseline, and any other keeps it (R160, R180). -/
theorem commitFrame_withContents (rec : DecodeRecord) (h : s.energy.pulseValid = true → s.energy.pulseLast = p) :
    commitFrame rec (s.withContents m p) =
      (commitFrame rec s).withContents m (if rec.hp then rec.cf else p) := by
  have hdiff : pulseDiff (s.withContents m p).energy rec.cf = pulseDiff s.energy rec.cf := pulseDiff_of_hidden _ h
  have hresponse : commitResponse rec (s.withContents m p).energy = commitResponse rec s.energy := by
    rw [commitResponse, hdiff]
    rfl
  have hregs : commitRegs rec (s.withContents m p) =
      (commitRegs rec s).withContents m (if rec.hp then rec.cf else p) := by
    unfold commitRegs energyStep
    rw [hdiff]
    cases rec.hp <;> rfl
  rw [commitFrame, hresponse, hregs]
  rfl

/-- Frames with the same bytes end alike, whatever the unset `pulse_last` (R27, R159). -/
theorem completeFrame_endAlike (h : s.energy.pulseValid = true → s.energy.pulseLast = p) :
    EndAlike (completeFrame Config.hw s) (completeFrame Config.hw (s.withContents s.buf p)) := by
  have discarded {evt : Event} {info : BitVec 4} : HiddenContents s.buf p (discardFrame evt info s) :=
    .of_cur_zero rfl h
  cases hd : decodeFrame Config.hw s.buf with
  | uncalibrated =>
    exact discarded.endAlike (completeFrame_of_uncalibrated hd) (completeFrame_of_uncalibrated hd)
  | abortStatus bits =>
    exact discarded.endAlike (completeFrame_of_abortStatus hd) (completeFrame_of_abortStatus hd)
  | zeroCycle w =>
    exact discarded.endAlike (completeFrame_of_zeroCycle hd) (completeFrame_of_zeroCycle hd)
  | ok rec =>
    have committed : HiddenContents s.buf (if rec.hp then rec.cf else p) (commitFrame rec s) := by
      refine .of_cur_zero rfl fun hv => ?_
      rw [commitFrame_energy] at hv ⊢
      split_ifs at hv ⊢
      · rfl
      · exact h hv
    refine committed.endAlike (completeFrame_of_ok hd) ?_
    rw [← commitFrame_withContents rec h]
    exact completeFrame_of_ok hd

/-! ### A stream byte -/

theorem storedByte_withContents :
    storedByte b (s.withContents m p) = (storedByte b s).withContents (m.write s.cur.toNat b) p := by
  rw [storedByte, stampInvocation_eq, storedByte, stampInvocation_eq]
  rfl

/-- The store at the cursor makes the byte there the same, so nothing up to the cursor is hidden (R50, R103). -/
theorem HiddenContents.read_write (h : HiddenContents m p s) (hwf : s.buf.wf = true) (hwf' : m.wf = true) {k : Nat}
    (hk : k ≤ s.cur.toNat) : (s.buf.write s.cur.toNat b).read k = (m.write s.cur.toNat b).read k := by
  rw [Memory.read_write b hwf, Memory.read_write b hwf']
  split_ifs with hne
  · rfl
  · exact h.buf k (by omega)

/-- At the last position the store leaves no byte of the frame hidden (R50). -/
theorem HiddenContents.write_last (h : HiddenContents m p s) (hwf : s.buf.wf = true) (hwf' : m.wf = true)
    (hcur : s.cur.toNat = 23) : s.buf.write s.cur.toNat b = m.write s.cur.toNat b := by
  have hw := Memory.write_wf b hwf (a := s.cur.toNat) (by omega)
  have hw' := Memory.write_wf b hwf' (a := s.cur.toNat) (by omega)
  refine Memory.ext hw hw' fun k => ?_
  by_cases hk : k < 24
  · exact h.read_write hwf hwf' (by omega)
  · rw [Memory.read_above hw (Nat.le_of_not_lt hk), Memory.read_above hw' (Nat.le_of_not_lt hk)]

/-- A stream byte is judged by bytes up to the cursor alone, and a completed frame has no hidden byte (R35, R104). -/
theorem deliverByte_endAlike (h : HiddenContents m p s) (hwf : s.buf.wf = true) (hwf' : m.wf = true)
    (hcur : s.cur.toNat < 24) :
    EndAlike (deliverByte Config.hw b s) (deliverByte Config.hw b (s.withContents m p)) := by
  have hpulse : (storedByte b s).energy.pulseValid = true → (storedByte b s).energy.pulseLast = p := by
    simpa using h.pulseLast
  have hvalid : valid Config.hw (m.write s.cur.toNat b) s.cur.toNat =
      valid Config.hw (s.buf.write s.cur.toNat b) s.cur.toNat :=
    valid_congr _ hcur fun k hk => (h.read_write hwf hwf' hk).symm
  rw [deliverByte_of_lt _ _ (s.withContents m p) hcur, storedByte_withContents, checkByte, State.withContents_buf,
    State.withContents_cur, hvalid]
  obtain ⟨hv, hd⟩ | ⟨hv, hlt, hd⟩ | ⟨hv, hlast, hd⟩ := deliverByte_cases b s hcur <;> rw [storedByte_buf] at hv
  · have rejected : HiddenContents (m.write s.cur.toNat b) p (rejectByte s.cur (storedByte b s)) :=
      .of_cur_zero rfl hpulse
    refine rejected.endAlike hd ?_
    rw [hv]
    rfl
  · have hnext : (s.cur + 1#5).toNat = s.cur.toNat + 1 := by bv_omega
    have accepted : HiddenContents (m.write s.cur.toNat b) p (acceptByte s.cur (storedByte b s)) :=
      ⟨fun k hk => h.read_write hwf hwf' (Nat.le_of_lt_succ (hk.trans_eq hnext)), hpulse⟩
    refine accepted.endAlike hd ?_
    rw [if_pos hv, if_neg hlt.ne]
    rfl
  · rw [hd, if_pos hv, if_pos hlast, ← h.write_last hwf hwf' hlast]
    exact completeFrame_endAlike hpulse

/-! ### Every command, and a step -/

/-- Every command ends alike in states that differ where the host cannot look (R251). -/
theorem exec_endAlike (i : Instr) (h : HiddenContents m p s) (hwf : s.buf.wf = true) (hwf' : m.wf = true)
    (hcur : s.cur.toNat < 24) : EndAlike (exec i s) (exec i (s.withContents m p)) := by
  cases hb : i.streamByte with
  | none =>
    obtain ⟨t, -, hx, -⟩ := everyCommandCompletes i s hcur
    exact (h.of_exec_noByte hb hx).endAlike hx (exec_noByte_withContents hb hx)
  | some b =>
    rw [exec_of_streamByte hb, exec_of_streamByte hb]
    exact deliverByte_endAlike h hwf hwf' hcur

end Hidden

/-- With `rst` at the head of the inputs, a step resets the registers (R250). -/
theorem step_of_rst {s : State} {during : Option CmdWord} {rest : List Input} (h : s.inputs = .rst during :: rest) :
    step s = .next { State.reset with inputs := rest } := by
  obtain ⟨h', -⟩ | ⟨_, _, h', hstep⟩ | ⟨_, _, h', -⟩ := step_cases s
  · simp [h] at h'
  · obtain ⟨-, rfl⟩ : _ ∧ _ := by simpa [h] using h'
    exact hstep
  · simp [h] at h'

/-- Settles O51: a step holds both states, resets both to one state, or runs the same command in both. -/
theorem resetContentsAreNeverObservable : Obligations.ResetContentsAreNeverObservable := by
  intro s t hwf hwf' hcur halike
  obtain ⟨m, p, h, rfl⟩ := (State.alike_iff s t).1 halike
  cases hin : s.inputs with
  | nil => exact ⟨s, _, step_of_no_input hin, step_of_no_input hin, halike⟩
  | cons input rest =>
    cases input with
    | rst during =>
      have hreset : HiddenContents [] 0#16 { State.reset with inputs := rest } := .of_cur_zero rfl fun _ => rfl
      exact hreset.endAlike (step_of_rst hin) (step_of_rst (s := s.withContents m p) hin)
    | cmd w =>
      have hrest : HiddenContents m p { s with inputs := rest } := ⟨h.buf, h.pulseLast⟩
      obtain ⟨s', t', hs, ht, hend⟩ := exec_endAlike (decodeCmd w) hrest hwf hwf' hcur
      exact ⟨s', t', (step_of_cmd hin).trans hs, (step_of_cmd (s := s.withContents m p) hin).trans ht, hend⟩

/-! ### Reset -/

/-- Settles O8: the values are those of `State.reset`, and a step that takes `rst` ends in it. -/
theorem resetAssignsTheRegisters : Obligations.ResetAssignsTheRegisters :=
  ⟨by decide, fun _ _ _ h => ⟨_, step_of_rst h, rfl, rfl, rfl, rfl, rfl, rfl, rfl, rfl, rfl, rfl, rfl, rfl⟩⟩

/-! ### The first commands after reset -/

/-- The first byte after reset is judged as a header 1 (R251). -/
theorem exec_byte_at_reset (b : Byte) : ∃ t r, exec (.byte b) State.reset = .next t ∧ t.rsp = some r ∧
    r.pos = 0#5 ∧ r.evt = if b = 0x55#8 ∨ b = 0xAA#8 ∨ 0xF0 ≤ b.toNat then .byteAccepted else .rejectHdr1 := by
  have hx := headerOneDecidesAcceptance b State.reset rfl rfl
  split_ifs at hx ⊢ <;> exact ⟨_, _, hx, rfl, rfl, rfl⟩

/-- The first energy step after reset adds nothing and records the counter (R181, R251). -/
theorem energyStep_at_reset (pcoef : Raw24) (cf : Raw16) : pulseDiff State.reset.energy cf = 0#16 ∧
    energyIncrement (pulseDiff State.reset.energy cf) pcoef = 0#32 ∧
    (energyStep pcoef cf State.reset.energy).total = 0#32 ∧
    (energyStep pcoef cf State.reset.energy).pulseLast = cf := by
  have hinc : energyIncrement (pulseDiff State.reset.energy cf) pcoef = plusZero :=
    (energyIncrementIsBounded 0#16 pcoef).1 (.inl rfl)
  refine ⟨rfl, hinc, ?_, rfl⟩
  rw [energyStep_total, hinc]
  exact numAdd_plusZero (by decide)

/-- A POLL after reset measures from time 0, and the cursor is at 0 either way (R102, R251). -/
theorem exec_poll_at_reset (now : Time) : ∃ t r, exec (.poll now) State.reset = .next t ∧ t.rsp = some r ∧
    t.cur = 0#5 ∧ (r.evt = .timeout ↔ 500 ≤ now.toNat) := by
  have hfired : timeoutFired Config.hw now State.reset.lastT = decide (500 ≤ now.toNat) := by
    rw [timeoutFired_of_inclusive rfl, elapsed]
    exact congrArg (fun e : Time => decide (500 ≤ e.toNat)) (BitVec.sub_zero now)
  refine ⟨_, _, congrArg Host.Outcome.next (pollCommand_of_fired hfired), rfl, ite_self _, ?_⟩
  by_cases h : 500 ≤ now.toNat <;> simp [h]

/-- Settles O9: one lemma for each kind of command, and PUBLISH at reset finds every count 0. -/
theorem firstCommandsAfterResetAnswerAsStated : Obligations.FirstCommandsAfterResetAnswerAsStated :=
  ⟨exec_byte_at_reset, energyStep_at_reset, ⟨_, _, rfl, rfl, rfl, rfl, rfl, rfl⟩, exec_poll_at_reset⟩

end Sys2Proof.Machine
end
